-- ==== Sys2Proof/Word.lean ====
section
/-! DEFINITION. The fixed-width words of the block's encodings and registers (R31, R70). The integers of the
arithmetic are natural numbers (R8) and have no word type. -/

namespace Sys2Proof

/-- One command word, or one 32-bit register of the block (R31, R70). -/
abbrev Word32 := BitVec 32

/-- One 8-bit field of a command word: a register index, a context index, an opcode (R70). -/
abbrev Index := BitVec 8

/-- One byte of BOUT (R11). -/
abbrev Byte := BitVec 8

end Sys2Proof
end

