-- ==== Sys2Proof/Syntax.lean ====
section
/-! DEFINITION. The 20 commands of R73, one constructor per row of spec/opcode_table.json, with the operands of
their formats (R71). The large operand of PSETUP and VNEW is `Int(DIN)`, no field of the command (R72). -/

namespace Sys2Proof

/-- A command. `vd` is a destination register, `va` and `vb` are sources, `ctx` is a context index, `e` is the
source's `needs_domain_entry` (R72). -/
inductive Instr where
  /-- Construct Montgomery Parameters in a context (R100). -/
  | psetup (ctx : Index)
  /-- Construct a Value from the integer in DIN (R130). -/
  | vnew (vd ctx : Index) (e : Bool)
  /-- Destroy a Value (R132). -/
  | vfree (vd : Index)
  /-- Modular addition (R140). -/
  | add (vd va vb : Index)
  /-- Modular subtraction (R141). -/
  | sub (vd va vb : Index)
  /-- Montgomery multiplication (R113). -/
  | mul (vd va vb : Index)
  /-- Montgomery squaring (R114). -/
  | sqr (vd va : Index)
  /-- Multiplicative inverse (R125). -/
  | inv (vd va : Index)
  /-- Additive inverse (R142). -/
  | neg (vd va : Index)
  /-- Multiply by 2 (R151). -/
  | mul2 (vd va : Index)
  /-- Multiply by 3 (R152). -/
  | mul3 (vd va : Index)
  /-- Multiply by 4 (R153). -/
  | mul4 (vd va : Index)
  /-- Multiply by 8 (R154). -/
  | mul8 (vd va : Index)
  /-- The source's `fix_size()` (R133). -/
  | fixsz (vd : Index)
  /-- Exit the domain (R160). -/
  | value (va : Index)
  /-- Serialize the logical value (R161). -/
  | ser (va : Index)
  /-- Test for logical zero (R162). -/
  | iszero (va : Index)
  /-- Test for logical one (R163). -/
  | isone (va : Index)
  /-- Equality of two values (R164). -/
  | eq (va vb : Index)
  /-- Inequality of two values (R165). -/
  | ne (va vb : Index)
deriving DecidableEq, Repr

end Sys2Proof
end

