-- ==== Sys2Proof/Decode.lean ====
section
/-! DEFINITION. The command word (R70 to R77): its fields, the decoder, the encoder (R80), the opcode map of R73 as
data, and the pseudo-instructions of R81. Decoding reads no state; the index ranges of R76 need `NP` and `NV` and
are the first check of every meaning (Machine/Operands.lean). -/

namespace Sys2Proof

/-- Bits 31:24 (R70). -/
def fieldOp (c : Word32) : Byte := c.extractLsb' 24 8

/-- Bits 23:16 (R70). -/
def fieldRd (c : Word32) : Index := c.extractLsb' 16 8

/-- Bits 15:8 (R70). -/
def fieldRa (c : Word32) : Index := c.extractLsb' 8 8

/-- Bits 7:0 (R70). -/
def fieldRb (c : Word32) : Index := c.extractLsb' 0 8

/-- Why a word is no command. -/
inductive DecodeError where
  /-- The opcode is in no row of R73 (R74). -/
  | reservedOpcode (op : Byte)
  /-- A field the format says must be 0 is not (R75). -/
  | reservedField (op : Byte)
deriving DecidableEq, Repr

/-- The command of a word whose fields `zeros` must be 0 (R71, R75). -/
def withZeros (c : Word32) (zeros : List Byte) (i : Instr) : Except DecodeError Instr :=
  if zeros.all (· == 0) then .ok i else .error (.reservedField (fieldOp c))

/-- Decoding, total on all 2^32 words (R73 to R75, R77). -/
def decode (c : Word32) : Except DecodeError Instr :=
  let rd := fieldRd c
  let ra := fieldRa c
  let rb := fieldRb c
  match (fieldOp c).toNat with
  | 0x01 => withZeros c [rd, rb] (.psetup ra)
  | 0x02 => withZeros c [rb &&& 0xFE] (.vnew rd ra (rb.getLsbD 0))
  | 0x03 => withZeros c [ra, rb] (.vfree rd)
  | 0x10 => withZeros c [] (.add rd ra rb)
  | 0x11 => withZeros c [] (.sub rd ra rb)
  | 0x12 => withZeros c [] (.mul rd ra rb)
  | 0x13 => withZeros c [rb] (.sqr rd ra)
  | 0x14 => withZeros c [rb] (.inv rd ra)
  | 0x15 => withZeros c [rb] (.neg rd ra)
  | 0x18 => withZeros c [rb] (.mul2 rd ra)
  | 0x19 => withZeros c [rb] (.mul3 rd ra)
  | 0x1A => withZeros c [rb] (.mul4 rd ra)
  | 0x1B => withZeros c [rb] (.mul8 rd ra)
  | 0x1C => withZeros c [ra, rb] (.fixsz rd)
  | 0x20 => withZeros c [rd, rb] (.value ra)
  | 0x21 => withZeros c [rd, rb] (.ser ra)
  | 0x28 => withZeros c [rd, rb] (.iszero ra)
  | 0x29 => withZeros c [rd, rb] (.isone ra)
  | 0x2A => withZeros c [rd] (.eq ra rb)
  | 0x2B => withZeros c [rd] (.ne ra rb)
  | _ => .error (.reservedOpcode (fieldOp c))

/-- Four fields as one word: `(op << 24) + (rd << 16) + (ra << 8) + rb` (R70, R80). -/
def pack (op rd ra rb : Byte) : Word32 := op ++ rd ++ ra ++ rb

/-- The flag byte of format N (R71, R72). -/
def flagByte (e : Bool) : Byte := if e then 1 else 0

/-- Assembly (R71, R73, R80). -/
def encode : Instr → Word32
  | .psetup ctx => pack 0x01 0 ctx 0
  | .vnew vd ctx e => pack 0x02 vd ctx (flagByte e)
  | .vfree vd => pack 0x03 vd 0 0
  | .add vd va vb => pack 0x10 vd va vb
  | .sub vd va vb => pack 0x11 vd va vb
  | .mul vd va vb => pack 0x12 vd va vb
  | .sqr vd va => pack 0x13 vd va 0
  | .inv vd va => pack 0x14 vd va 0
  | .neg vd va => pack 0x15 vd va 0
  | .mul2 vd va => pack 0x18 vd va 0
  | .mul3 vd va => pack 0x19 vd va 0
  | .mul4 vd va => pack 0x1A vd va 0
  | .mul8 vd va => pack 0x1B vd va 0
  | .fixsz vd => pack 0x1C vd 0 0
  | .value va => pack 0x20 0 va 0
  | .ser va => pack 0x21 0 va 0
  | .iszero va => pack 0x28 0 va 0
  | .isone va => pack 0x29 0 va 0
  | .eq va vb => pack 0x2A 0 va vb
  | .ne va vb => pack 0x2B 0 va vb

/-- A row of R73's opcode map. -/
structure OpcodeRow where
  mnemonic : String
  mask : Word32
  pattern : Word32
deriving DecidableEq, Repr

/-- R73's table. -/
def opcodeRows : List OpcodeRow := [
  ⟨"PSETUP", 0xFFFF00FF, 0x01000000⟩,
  ⟨"VNEW", 0xFF0000FE, 0x02000000⟩,
  ⟨"VFREE", 0xFF00FFFF, 0x03000000⟩,
  ⟨"ADD", 0xFF000000, 0x10000000⟩,
  ⟨"SUB", 0xFF000000, 0x11000000⟩,
  ⟨"MUL", 0xFF000000, 0x12000000⟩,
  ⟨"SQR", 0xFF0000FF, 0x13000000⟩,
  ⟨"INV", 0xFF0000FF, 0x14000000⟩,
  ⟨"NEG", 0xFF0000FF, 0x15000000⟩,
  ⟨"MUL2", 0xFF0000FF, 0x18000000⟩,
  ⟨"MUL3", 0xFF0000FF, 0x19000000⟩,
  ⟨"MUL4", 0xFF0000FF, 0x1A000000⟩,
  ⟨"MUL8", 0xFF0000FF, 0x1B000000⟩,
  ⟨"FIXSZ", 0xFF00FFFF, 0x1C000000⟩,
  ⟨"VALUE", 0xFFFF00FF, 0x20000000⟩,
  ⟨"SER", 0xFFFF00FF, 0x21000000⟩,
  ⟨"ISZERO", 0xFFFF00FF, 0x28000000⟩,
  ⟨"ISONE", 0xFFFF00FF, 0x29000000⟩,
  ⟨"EQ", 0xFFFF0000, 0x2A000000⟩,
  ⟨"NE", 0xFFFF0000, 0x2B000000⟩]

/-- The mnemonic of a command (R73). -/
def Instr.mnemonic : Instr → String
  | .psetup _ => "PSETUP"
  | .vnew _ _ _ => "VNEW"
  | .vfree _ => "VFREE"
  | .add _ _ _ => "ADD"
  | .sub _ _ _ => "SUB"
  | .mul _ _ _ => "MUL"
  | .sqr _ _ => "SQR"
  | .inv _ _ => "INV"
  | .neg _ _ => "NEG"
  | .mul2 _ _ => "MUL2"
  | .mul3 _ _ => "MUL3"
  | .mul4 _ _ => "MUL4"
  | .mul8 _ _ => "MUL8"
  | .fixsz _ => "FIXSZ"
  | .value _ => "VALUE"
  | .ser _ => "SER"
  | .iszero _ => "ISZERO"
  | .isone _ => "ISONE"
  | .eq _ _ => "EQ"
  | .ne _ _ => "NE"

/-- `ENTER vd, ctx` (R81). -/
def pseudoEnter (vd ctx : Index) : Instr := .vnew vd ctx true

/-- `VRAW vd, ctx` (R81). -/
def pseudoVraw (vd ctx : Index) : Instr := .vnew vd ctx false

/-- `ADDA vd, vb` (R81). -/
def pseudoAdda (vd vb : Index) : Instr := .add vd vd vb

/-- `SUBA vd, vb` (R81). -/
def pseudoSuba (vd vb : Index) : Instr := .sub vd vd vb

/-- `MULA vd, vb` (R81). -/
def pseudoMula (vd vb : Index) : Instr := .mul vd vd vb

/-- `SQRA vd` (R81). -/
def pseudoSqra (vd : Index) : Instr := .sqr vd vd

/-- `INVA vd` (R81). -/
def pseudoInva (vd : Index) : Instr := .inv vd vd

/-- `NEGA vd` (R81). -/
def pseudoNega (vd : Index) : Instr := .neg vd vd

/-- `MUL2A vd` (R81). -/
def pseudoMul2a (vd : Index) : Instr := .mul2 vd vd

/-- `MUL3A vd` (R81). -/
def pseudoMul3a (vd : Index) : Instr := .mul3 vd vd

/-- `MUL4A vd` (R81). -/
def pseudoMul4a (vd : Index) : Instr := .mul4 vd vd

/-- `MUL8A vd` (R81). -/
def pseudoMul8a (vd : Index) : Instr := .mul8 vd vd

/-- The 32-bit word whose low `nbits` bits are those of `w` and whose other bits are 0. -/
def tableWord (nbits w : Nat) : Word32 := BitVec.ofNat 32 (w % 2 ^ nbits)

/-- The command the decoder reads from a word given as a number of `nbits` bits (every row of the opcode table has
32, R70; a longer word is no command). -/
def decodeTableWord (nbits w : Nat) : Option Instr :=
  if nbits ≤ 32 then (decode (tableWord nbits w)).toOption else none

end Sys2Proof
end

