-- ==== Sys2Proof/Machine/Arith.lean ====
section
/-! DEFINITION. The block's arithmetic on natural numbers: notation (R9, R11, R12), parameter precomputation (R101 to
R104), Montgomery reduction (R110), modular addition (R140 to R142) and the small multiples (R150). `x >> k` is
`x / 2^k`. Numbers have no width and nothing wraps (R12). -/

namespace Sys2Proof.Machine

/-- `bitlen(x)` (R12). -/
def bitlen (x : Nat) : Nat := if x = 0 then 0 else Nat.log2 x + 1

/-- `ceil_div(a, b)` (R12). -/
def ceilDiv (a b : Nat) : Nat := (a + b - 1) / b

/-- `word(x, i)` (R9). -/
def wordOf (W x i : Nat) : Nat := x / 2 ^ (W * i) % 2 ^ W

/-- `Int` of a buffer of words, word 0 least significant (R11, R53). -/
def intOf (W : Nat) : List Nat → Nat
  | [] => 0
  | w :: ws => w + 2 ^ W * intOf W ws

/-- The words `word(x, 0) .. word(x, n-1)` (R11). -/
def wordsOf (W n x : Nat) : List Nat := (List.range n).map (wordOf W x)

/-- `BE(x, L)` (R11). -/
def bigEndian (x L : Nat) : List Byte :=
  (List.range L).map fun j => BitVec.ofNat 8 (x / 2 ^ (8 * (L - 1 - j)))

/-- The extended Euclidean algorithm modulo `m`, on remainders `r0 > r1` whose cofactors are `t0`, `t1`. -/
def euclid (m : Nat) : Nat → Nat → Nat → Nat → Nat → Nat
  | 0, _, t0, _, _ => t0
  | fuel + 1, r0, t0, r1, t1 =>
    if r1 = 0 then t0
    else euclid m fuel r1 t1 (r0 % r1) ((t0 + (m - r0 / r1 * t1 % m)) % m)

/-- `inv_mod(x, m)` (R12), for `gcd(x, m) = 1` and `m > 1`. Each pass lowers the remainder, so `m` passes suffice. -/
def invMod (x m : Nat) : Nat := euclid m m m 0 (x % m) 1

/-- `pwords(p)` (R101). -/
def pwords (W p : Nat) : Nat := ceilDiv (bitlen p) W

/-- `Rof(p)` (R101). -/
def rOf (W p : Nat) : Nat := 2 ^ (pwords W p * W)

/-- `pdash(p)`, in R102's closed form. -/
def pdash (W p : Nat) : Nat := (2 ^ W - invMod (p % 2 ^ W) (2 ^ W)) % 2 ^ W

/-- `Rpow(p, k)` (R103); the reducer is `x mod p` (R104). -/
def rPow (W p k : Nat) : Nat := rOf W p ^ k % p

/-- One pass of R110's loop: the word multiplier, then the shift that loses nothing. -/
def redcPass (W p d a : Nat) : Nat := (a + a % 2 ^ W * d % 2 ^ W * p) / 2 ^ W

/-- `n` passes (R110). -/
def redcLoop (W p d : Nat) : Nat → Nat → Nat
  | 0, a => a
  | n + 1, a => redcLoop W p d n (redcPass W p d a)

/-- One conditional subtraction of `p` (R110, R140). -/
def subtractOnce (p a : Nat) : Nat := if p ≤ a then a - p else a

/-- `redc` (R110). Total; outside `x < R*p` nothing reachable depends on it (U9, notes/assumptions/13.md). -/
def redc (W p n d x : Nat) : Nat := subtractOnce p (redcLoop W p d n x)

/-- R140's sum. -/
def modAdd (p a b : Nat) : Nat := subtractOnce p (a + b)

/-- R141's difference. -/
def modSub (p a b : Nat) : Nat := if b ≤ a then a - b else a + p - b

/-- R142's negative. -/
def modNeg (p a : Nat) : Nat := if a = 0 then 0 else p - a

/-- `smul(j, v, p)` in R150's closed form. -/
def smul (j v p : Nat) : Nat := j * v % p

end Sys2Proof.Machine
end

