-- ==== Sys2Proof/Config.lean ====
section
/-! DEFINITION. What an implementation fixes (R6, R7), and the free values: what the spec leaves without a value. -/

namespace Sys2Proof

/-- The four parameters of R6. They are arguments of the model, fixed for the life of an instance: State carries
them and no step writes them. DESIGN CHOICE, safe, notes/assumptions/1.md. -/
structure Config where
  /-- `W`, the width of one machine word in bits. -/
  W : Nat
  /-- `N_MAX`, the number of words in DIN, DOUT and each stored integer. -/
  nMax : Nat
  /-- `NP`, the number of parameter contexts. -/
  nP : Nat
  /-- `NV`, the number of value registers. -/
  nV : Nat
deriving DecidableEq, Repr

/-- The constraints R6 puts on the parameters. -/
abbrev Config.wf (k : Config) : Prop :=
  1 ≤ k.W ∧ 1 ≤ k.nMax ∧ (1 ≤ k.nP ∧ k.nP ≤ 256) ∧ (1 ≤ k.nV ∧ k.nV ≤ 256)

/-- `LIMIT = 2^(N_MAX*W)` (R7). -/
def Config.limit (k : Config) : Nat := 2 ^ (k.nMax * k.W)

/-- `BYTES_MAX = ceil(N_MAX*W / 8)` (R7). -/
def Config.bytesMax (k : Config) : Nat := (k.nMax * k.W + 7) / 8

/-- Configuration A of spec/95_test_vectors.md. -/
def Config.configA : Config := { W := 32, nMax := 4, nP := 2, nV := 8 }

/-- Configuration B of spec/95_test_vectors.md. -/
def Config.configB : Config := { W := 8, nMax := 4, nP := 2, nV := 8 }

/-- Configuration C of spec/95_test_vectors.md. -/
def Config.configC : Config := { W := 64, nMax := 2, nP := 2, nV := 8 }

/-- A free value: what DLEN holds after a VALUE whose `p_words` needs more than DLEN's 32 bits. R6 puts no upper
bound on `N_MAX` and no rule says what is stored. DESIGN CHOICE, safe, notes/assumptions/9.md. -/
opaque Config.unstatedDlen : Nat → Word32

/-- A free value: what BLEN holds after a SER whose byte count needs more than BLEN's 32 bits.
DESIGN CHOICE, safe, notes/assumptions/9.md. -/
opaque Config.unstatedBlen : Nat → Word32

end Sys2Proof
end

