-- ==== Sys2Proof/Machine/State.lean ====
section
/-! DEFINITION. The architectural state (R20 to R40) as plain data, the host's transactions (R50, R51), the error
codes' names (R180), the reasons a step can stop, and reset. -/

namespace Sys2Proof.Machine

/-- One constructed Montgomery Parameters instance (R21). `valid` is the `some` around it. -/
structure Context where
  p : Nat
  pWords : Nat
  pDash : Nat
  R1 : Nat
  R2 : Nat
  R3 : Nat
deriving DecidableEq, Repr

/-- One Montgomery Value (R24): its context's index and the stored representation. `valid` is the `some` around it. -/
structure Value where
  ctx : Nat
  v : Nat
deriving DecidableEq, Repr

/-- The eight ports of R50. -/
inductive Port where
  | cmd | din | dout | bout | status | errlog | dlen | blen
deriving DecidableEq, Repr

/-- What the host can ask of the block: the nine transactions of R51, and an access against a port's direction, which
R51 says is no transaction of the block. -/
inductive Transaction where
  | hostWriteDIN (i w : Nat)
  | hostIssue (c : Word32)
  | hostReadDOUT (i : Nat)
  | hostReadBOUT (j : Nat)
  | hostReadSTATUS
  | hostReadERRLOG
  | hostReadDLEN
  | hostReadBLEN
  | hostReset
  /-- A read of CMD or DIN, or a write of one of the six read-only ports. -/
  | wrongDirection (port : Port)
deriving DecidableEq, Repr

/-- The eight error codes of R180, by name. -/
inductive ErrorCode where
  | invalidModulus
  | mismatchedModulus
  | notInvertible
  | malformedRepresentation
  | illegalCommand
  | unwritten
  | contextBusy
  | operandRange
deriving DecidableEq, Repr

/-- The state. `cfg`, `pending` and `replies` are the model's own (notes/assumptions/1.md, 3.md, 5.md); the rest is R20's
list, and nothing else. -/
structure State where
  /-- The parameters of R6; no step writes them. -/
  cfg : Config
  /-- `P[0..NP-1]` (R21); `none` is `valid = 0`, and then no field holds a value. -/
  contexts : List (Option Context)
  /-- `V[0..NV-1]` (R24); `none` is `valid = 0`, and then no field holds a value. -/
  values : List (Option Value)
  /-- The flag `T` (R30). -/
  t : Bool
  /-- `ERR` (R31). -/
  err : BitVec 8
  /-- `ERRLOG` (R32). -/
  errlog : Word32
  /-- `DIN`, word 0 least significant (R35, R53). -/
  din : List Nat
  /-- `DOUT`, word 0 least significant (R36, R53). -/
  dout : List Nat
  /-- `DLEN` (R33). -/
  dlen : Word32
  /-- `BOUT`, byte 0 most significant of the serialization (R37, R54). -/
  bout : List Byte
  /-- `BLEN` (R33). -/
  blen : Word32
  /-- The host transactions still to come, oldest first. -/
  pending : List Transaction
  /-- What the read transactions returned, newest first. -/
  replies : List Nat
deriving DecidableEq, Repr

/-- The block has no fault: "No behaviour of this block is `stuck`" (93_implementation_defined.md), and a failing command
is a step (R199). No constructor, so nobody raises one: DEDUCED, safe, notes/assumptions/18.md. -/
inductive Fault where
deriving DecidableEq, Repr

/-- Why the model takes no step. -/
inductive Refusal where
  /-- Raised by exec for a command that has no meaning yet (none is left). Safe. -/
  | notModelled (mnemonic : String)
  /-- Raised by a transaction that reads CMD or DIN or writes a read-only port (R51, D33). Safe. -/
  | wrongDirection (port : Port)
  /-- Raised by a transaction whose index is outside its port's range (R51, R56, D33). Safe. -/
  | indexOutOfRange (port : Port) (i : Nat)
  /-- Raised by HostWriteDIN of a word wider than `W` bits (R51, D33). Safe. -/
  | wordTooWide (w : Nat)
deriving DecidableEq, Repr

/-- The state after reset of an instance with parameters `k` (R40). -/
def State.resetOf (k : Config) : State where
  cfg := k
  contexts := List.replicate k.nP none
  values := List.replicate k.nV none
  t := false
  err := 0
  errlog := 0
  din := List.replicate k.nMax 0
  dout := List.replicate k.nMax 0
  dlen := 0
  bout := List.replicate k.bytesMax 0
  blen := 0
  pending := []
  replies := []

/-- The machine right after reset: R40, for configuration A of 95_test_vectors.md (DESIGN CHOICE, unsafe,
notes/assumptions/2.md), with no transaction waiting. -/
def State.reset : State := State.resetOf Config.configA

end Sys2Proof.Machine
end

