-- ==== Sys2Proof/Machine/Ops.lean ====
section
/-! DEFINITION. The named operations over the state: reading and writing contexts, value registers and buffers, and
the two ways a command ends (R189, R190). -/

namespace Sys2Proof.Machine

/-- The number of an error code (R180). -/
def ErrorCode.code : ErrorCode → Nat
  | .invalidModulus => 1
  | .mismatchedModulus => 2
  | .notInvertible => 3
  | .malformedRepresentation => 4
  | .illegalCommand => 5
  | .unwritten => 6
  | .contextBusy => 7
  | .operandRange => 8

/-- ERRLOG's bit of a code (R32). -/
def ErrorCode.bit (e : ErrorCode) : Word32 := BitVec.ofNat 32 (2 ^ e.code)

/-- A command fails: `ERR` takes the code, its bit of `ERRLOG` is set, nothing else changes (R13, R189). The block's
one form of exception entry: no saved state, no vector, no mode (R189). -/
def State.fail (s : State) (e : ErrorCode) : State :=
  { s with err := BitVec.ofNat 8 e.code, errlog := s.errlog ||| e.bit }

/-- A command succeeds: `ERR <- 0` (R190). -/
def State.succeed (s : State) : State := { s with err := 0 }

/-- The end of a command: its results written together, or the failure of the first check that failed (R78). -/
def State.complete (s : State) (r : Except ErrorCode State) : Host.Outcome State Fault Refusal :=
  match r with
  | .ok t => .next t.succeed
  | .error e => .next (s.fail e)

/-- `P[c]`, when it is valid (R21). -/
def State.contextAt (s : State) (c : Nat) : Option Context := (s.contexts[c]?).join

/-- `V[i]`, when it is valid (R24). -/
def State.valueAt (s : State) (i : Nat) : Option Value := (s.values[i]?).join

/-- `Referenced(c)`: some valid value register names context `c` (R15). -/
def State.referenced (s : State) (c : Nat) : Bool :=
  s.values.any fun o => match o with
    | some a => a.ctx == c
    | none => false

/-- Writes or, with `none`, invalidates a value register: all its fields together (R28). -/
def State.setValue (s : State) (i : Nat) (o : Option Value) : State :=
  { s with values := s.values.set i o }

/-- Constructs a context (R23). -/
def State.setContext (s : State) (c : Nat) (k : Context) : State :=
  { s with contexts := s.contexts.set c (some k) }

/-- `Int(DIN)` (R11). -/
def State.dinInt (s : State) : Nat := intOf s.cfg.W s.din

/-- `DIN[i] <- w` (R51). -/
def State.setDin (s : State) (i w : Nat) : State := { s with din := s.din.set i w }

/-- A count stored in DLEN's 32 bits (R33); what is stored of a count that needs more is a free value. -/
def dlenOf (n : Nat) : Word32 := if n < 2 ^ 32 then BitVec.ofNat 32 n else Config.unstatedDlen n

/-- A count stored in BLEN's 32 bits (R33); what is stored of a count that needs more is a free value. -/
def blenOf (n : Nat) : Word32 := if n < 2 ^ 32 then BitVec.ofNat 32 n else Config.unstatedBlen n

/-- `DOUT <- x`, all `N_MAX` words, and `DLEN <- n` (R11, R160). -/
def State.setDout (s : State) (x n : Nat) : State :=
  { s with dout := wordsOf s.cfg.W s.cfg.nMax x, dlen := dlenOf n }

/-- `BOUT[0..L-1] <- BE(x, L)`, the rest of `BOUT` 0, and `BLEN <- L` (R161). -/
def State.setBout (s : State) (x L : Nat) : State :=
  { s with bout := bigEndian x L ++ List.replicate (s.cfg.bytesMax - L) 0, blen := blenOf L }

/-- `STATUS`: `T` in bit 0, `ERR` in bits 15:8, the rest 0 (R31, R51). -/
def State.status (s : State) : Word32 :=
  BitVec.ofNat 32 (s.err.toNat * 2 ^ 8 + (if s.t then 1 else 0))

/-- A read transaction returns `x` and changes nothing of the block (R58). -/
def State.reply (s : State) (x : Nat) : State := { s with replies := x :: s.replies }

/-- A constructed instance for modulus `p` (R100 to R103). -/
def Context.ofModulus (W p : Nat) : Context where
  p := p
  pWords := pwords W p
  pDash := pdash W p
  R1 := rPow W p 1
  R2 := rPow W p 2
  R3 := rPow W p 3

/-- `P[c].R`, no field but `2^(P[c].p_words * W)` (R10). -/
def Context.R (c : Context) (W : Nat) : Nat := 2 ^ (c.pWords * W)

/-- `redc(c, x)` (R110). -/
def Context.redc (c : Context) (W x : Nat) : Nat := Sys2Proof.Machine.redc W c.p c.pWords c.pDash x

/-- `enter(c, x)` (R131). -/
def Context.enter (c : Context) (W x : Nat) : Nat := c.redc W (x * c.R2)

end Sys2Proof.Machine
end

