-- ==== Sys2Proof/WellFormed.lean ====
section
/-! DEFINITION. Well-formed commands: every index within its file (R76). The 8-bit width of an index and the one
bit of `e` are in their types. -/

namespace Sys2Proof

/-- A value register index in `0..NV-1`. -/
def regInRange (k : Config) (i : Index) : Bool := decide (i.toNat < k.nV)

/-- A context index in `0..NP-1`. -/
def ctxInRange (k : Config) (i : Index) : Bool := decide (i.toNat < k.nP)

/-- R76 on each operand of the command, by its format (R71). -/
def Instr.wellFormed (k : Config) : Instr → Bool
  | .psetup ctx => ctxInRange k ctx
  | .vnew vd ctx _ => regInRange k vd && ctxInRange k ctx
  | .vfree vd => regInRange k vd
  | .add vd va vb => regInRange k vd && regInRange k va && regInRange k vb
  | .sub vd va vb => regInRange k vd && regInRange k va && regInRange k vb
  | .mul vd va vb => regInRange k vd && regInRange k va && regInRange k vb
  | .sqr vd va => regInRange k vd && regInRange k va
  | .inv vd va => regInRange k vd && regInRange k va
  | .neg vd va => regInRange k vd && regInRange k va
  | .mul2 vd va => regInRange k vd && regInRange k va
  | .mul3 vd va => regInRange k vd && regInRange k va
  | .mul4 vd va => regInRange k vd && regInRange k va
  | .mul8 vd va => regInRange k vd && regInRange k va
  | .fixsz vd => regInRange k vd
  | .value va => regInRange k va
  | .ser va => regInRange k va
  | .iszero va => regInRange k va
  | .isone va => regInRange k va
  | .eq va vb => regInRange k va && regInRange k vb
  | .ne va vb => regInRange k va && regInRange k vb

end Sys2Proof
end

