-- ==== Sys2Proof/Machine/Operands.lean ====
section
/-! DEFINITION. The operand forms, one per format of R71: each runs steps 2 to 5 of R78 in their order (index ranges,
validity, ContextBusy, same context) and hands the meaning what it read, or the code of the first check that failed. -/

namespace Sys2Proof.Machine

/-- Step 2 of R78 for a value register index (R76). -/
def needReg (s : State) (i : Index) : Except ErrorCode Unit :=
  if regInRange s.cfg i then .ok () else .error .illegalCommand

/-- Step 2 of R78 for a context index (R76). -/
def needCtx (s : State) (i : Index) : Except ErrorCode Unit :=
  if ctxInRange s.cfg i then .ok () else .error .illegalCommand

/-- Step 3 of R78 for a source register (R186). -/
def sourceReg (s : State) (i : Index) : Except ErrorCode Value :=
  match s.valueAt i.toNat with
  | some a => .ok a
  | none => .error .unwritten

/-- The fields of a context, read by the command that names it (step 3 of R78, format N) or by a command on a value of
it. In the second case R25 says the context is valid; were it not, the command "fails first" with Unwritten (R21):
DEDUCED, safe, notes/assumptions/7.md. -/
def fieldsOf (s : State) (c : Nat) : Except ErrorCode Context :=
  match s.contextAt c with
  | some k => .ok k
  | none => .error .unwritten

/-- Format P: steps 2 and 4. -/
def formatP (s : State) (ctx : Index) : Except ErrorCode Unit := do
  needCtx s ctx
  if s.referenced ctx.toNat then .error .contextBusy else .ok ()

/-- Format N: steps 2 and 3. -/
def formatN (s : State) (vd ctx : Index) : Except ErrorCode Context := do
  needReg s vd
  needCtx s ctx
  fieldsOf s ctx.toNat

/-- Format D: step 2; FIXSZ adds step 3 by `sourceReg`. -/
def formatD (s : State) (vd : Index) : Except ErrorCode Unit := needReg s vd

/-- Formats RRR: steps 2, 3 and 5. -/
def formatRRR (s : State) (vd va vb : Index) : Except ErrorCode (Value × Value) := do
  needReg s vd
  needReg s va
  needReg s vb
  let a ← sourceReg s va
  let b ← sourceReg s vb
  if a.ctx = b.ctx then .ok (a, b) else .error .mismatchedModulus

/-- Format RR: steps 2 and 3. -/
def formatRR (s : State) (vd va : Index) : Except ErrorCode Value := do
  needReg s vd
  needReg s va
  sourceReg s va

/-- Format S: steps 2 and 3. -/
def formatS (s : State) (va : Index) : Except ErrorCode Value := do
  needReg s va
  sourceReg s va

/-- Format SS: steps 2, 3 and 5. -/
def formatSS (s : State) (va vb : Index) : Except ErrorCode (Value × Value) := do
  needReg s va
  needReg s vb
  let a ← sourceReg s va
  let b ← sourceReg s vb
  if a.ctx = b.ctx then .ok (a, b) else .error .mismatchedModulus

end Sys2Proof.Machine
end

