-- ==== Sys2Proof/Machine/AddSub.lean ====
section
/-! DEFINITION. Subunits modular_add and modular_sub: ADD, SUB, NEG (44_add_sub_neg.md), on the stored
representations, with no REDC (R143). -/

namespace Sys2Proof.Machine

/-- ADD (R140). -/
def execAdd (vd va vb : Index) (s : State) : Host.Outcome State Fault Refusal :=
  s.complete do
    let (a, b) ← formatRRR s vd va vb
    let k ← fieldsOf s a.ctx
    .ok (s.setValue vd.toNat (some { ctx := a.ctx, v := modAdd k.p a.v b.v }))

/-- SUB (R141). -/
def execSub (vd va vb : Index) (s : State) : Host.Outcome State Fault Refusal :=
  s.complete do
    let (a, b) ← formatRRR s vd va vb
    let k ← fieldsOf s a.ctx
    .ok (s.setValue vd.toNat (some { ctx := a.ctx, v := modSub k.p a.v b.v }))

/-- NEG (R142). -/
def execNeg (vd va : Index) (s : State) : Host.Outcome State Fault Refusal :=
  s.complete do
    let a ← formatRR s vd va
    let k ← fieldsOf s a.ctx
    .ok (s.setValue vd.toNat (some { ctx := a.ctx, v := modNeg k.p a.v }))

end Sys2Proof.Machine
end

