-- ==== Sys2Proof/Machine/Flags.lean ====
section
/-! DEFINITION. The one flag, `T` (R30), and the four tests that compute it (R162 to R165). No other command writes it. -/

namespace Sys2Proof.Machine

/-- `T <- b` (R30). -/
def State.setT (s : State) (b : Bool) : State := { s with t := b }

/-- The test of ISZERO (R162). -/
def testZero (a : Value) : Bool := a.v == 0

/-- The test of ISONE: `R1` represents logical one (R163). -/
def testOne (k : Context) (a : Value) : Bool := a.v == k.R1

/-- The test of EQ (R164). -/
def testEq (a b : Value) : Bool := a.v == b.v

/-- The test of NE (R165). -/
def testNe (a b : Value) : Bool := a.v != b.v

end Sys2Proof.Machine
end

