-- ==== Sys2Proof/Machine/ExitTests.lean ====
section
/-! DEFINITION. Domain exit and tests: VALUE, SER, ISZERO, ISONE, EQ, NE (46_exit_and_tests.md). None writes a value
register. -/

namespace Sys2Proof.Machine

/-- VALUE (R160). -/
def execValue (va : Index) (s : State) : Host.Outcome State Fault Refusal :=
  s.complete do
    let a ← formatS s va
    let k ← fieldsOf s a.ctx
    .ok (s.setDout (k.redc s.cfg.W a.v) k.pWords)

/-- SER (R161). -/
def execSer (va : Index) (s : State) : Host.Outcome State Fault Refusal :=
  s.complete do
    let a ← formatS s va
    let k ← fieldsOf s a.ctx
    .ok (s.setBout (k.redc s.cfg.W a.v) (ceilDiv (bitlen k.p) 8))

/-- ISZERO (R162). -/
def execIszero (va : Index) (s : State) : Host.Outcome State Fault Refusal :=
  s.complete do
    let a ← formatS s va
    .ok (s.setT (testZero a))

/-- ISONE (R163). -/
def execIsone (va : Index) (s : State) : Host.Outcome State Fault Refusal :=
  s.complete do
    let a ← formatS s va
    let k ← fieldsOf s a.ctx
    .ok (s.setT (testOne k a))

/-- EQ (R164). -/
def execEq (va vb : Index) (s : State) : Host.Outcome State Fault Refusal :=
  s.complete do
    let (a, b) ← formatSS s va vb
    .ok (s.setT (testEq a b))

/-- NE (R165). -/
def execNe (va vb : Index) (s : State) : Host.Outcome State Fault Refusal :=
  s.complete do
    let (a, b) ← formatSS s va vb
    .ok (s.setT (testNe a b))

end Sys2Proof.Machine
end

