-- ==== Sys2Proof/Machine/Inverse.lean ====
section
/-! DEFINITION. Subunit modular_inverse: INV (42_inverse.md). -/

namespace Sys2Proof.Machine

/-- The representation of the inverse of the logical value of `v`, when there is one (R125). -/
def invRepresentation (W : Nat) (k : Context) (v : Nat) : Except ErrorCode Nat :=
  let x := k.redc W v
  if Nat.gcd x k.p ≠ 1 then .error .notInvertible else .ok (k.enter W (invMod x k.p))

/-- INV (R125). -/
def execInv (vd va : Index) (s : State) : Host.Outcome State Fault Refusal :=
  s.complete do
    let a ← formatRR s vd va
    let k ← fieldsOf s a.ctx
    let v ← invRepresentation s.cfg.W k a.v
    .ok (s.setValue vd.toNat (some { ctx := a.ctx, v := v }))

end Sys2Proof.Machine
end

