-- ==== Sys2Proof/Machine/Lifecycle.lean ====
section
/-! DEFINITION. The life of a Value: VNEW, VFREE, FIXSZ (43_value_lifecycle.md). -/

namespace Sys2Proof.Machine

/-- The representation VNEW stores for the integer `x` under context `k` (R130). -/
def newRepresentation (W : Nat) (k : Context) (e : Bool) (x : Nat) : Except ErrorCode Nat :=
  if e then
    if k.R W ≤ x then .error .operandRange else .ok (k.enter W x)
  else
    if k.p ≤ x then .error .malformedRepresentation else .ok x

/-- VNEW (R130). -/
def execVnew (vd ctx : Index) (e : Bool) (s : State) : Host.Outcome State Fault Refusal :=
  s.complete do
    let k ← formatN s vd ctx
    let v ← newRepresentation s.cfg.W k e s.dinInt
    .ok (s.setValue vd.toNat (some { ctx := ctx.toNat, v := v }))

/-- VFREE (R132). -/
def execVfree (vd : Index) (s : State) : Host.Outcome State Fault Refusal :=
  s.complete do
    formatD s vd
    .ok (s.setValue vd.toNat none)

/-- FIXSZ (R133): the register is written back as it is; every stored representation already has its padding (R25). -/
def execFixsz (vd : Index) (s : State) : Host.Outcome State Fault Refusal :=
  s.complete do
    formatD s vd
    let a ← sourceReg s vd
    .ok (s.setValue vd.toNat (some a))

end Sys2Proof.Machine
end

