-- ==== Sys2Proof/Machine/MulRedc.lean ====
section
/-! DEFINITION. Subunits montgomery_mult_redc and modular_square: MUL, SQR (41_redc_mul_sqr.md). -/

namespace Sys2Proof.Machine

/-- MUL (R113). -/
def execMul (vd va vb : Index) (s : State) : Host.Outcome State Fault Refusal :=
  s.complete do
    let (a, b) ← formatRRR s vd va vb
    let k ← fieldsOf s a.ctx
    .ok (s.setValue vd.toNat (some { ctx := a.ctx, v := k.redc s.cfg.W (a.v * b.v) }))

/-- SQR (R114). -/
def execSqr (vd va : Index) (s : State) : Host.Outcome State Fault Refusal :=
  s.complete do
    let a ← formatRR s vd va
    let k ← fieldsOf s a.ctx
    .ok (s.setValue vd.toNat (some { ctx := a.ctx, v := k.redc s.cfg.W (a.v * a.v) }))

end Sys2Proof.Machine
end

