-- ==== Sys2Proof/Machine/Precompute.lean ====
section
/-! DEFINITION. Parameter precomputation, subunit montgomery_param_precompute: PSETUP (40_param_precompute.md). -/

namespace Sys2Proof.Machine

/-- PSETUP (R100). -/
def execPsetup (ctx : Index) (s : State) : Host.Outcome State Fault Refusal :=
  s.complete do
    formatP s ctx
    let p := s.dinInt
    if p = 0 ∨ p % 2 = 0 ∨ p = 1 then .error .invalidModulus
    else .ok (s.setContext ctx.toNat (Context.ofModulus s.cfg.W p))

end Sys2Proof.Machine
end

