-- ==== Sys2Proof/Machine/SmallMul.lean ====
section
/-! DEFINITION. The small multiples: MUL2, MUL3, MUL4, MUL8 (45_small_multiples.md). -/

namespace Sys2Proof.Machine

/-- `V[vd] <- (j * V[va]) mod p`, the shape of the four commands (R150, R151). -/
def smallMultiple (j : Nat) (vd va : Index) (s : State) : Except ErrorCode State := do
  let a ← formatRR s vd va
  let k ← fieldsOf s a.ctx
  .ok (s.setValue vd.toNat (some { ctx := a.ctx, v := smul j a.v k.p }))

/-- MUL2 (R151). -/
def execMul2 (vd va : Index) (s : State) : Host.Outcome State Fault Refusal :=
  s.complete (smallMultiple 2 vd va s)

/-- MUL3 (R152). -/
def execMul3 (vd va : Index) (s : State) : Host.Outcome State Fault Refusal :=
  s.complete (smallMultiple 3 vd va s)

/-- MUL4 (R153). -/
def execMul4 (vd va : Index) (s : State) : Host.Outcome State Fault Refusal :=
  s.complete (smallMultiple 4 vd va s)

/-- MUL8 (R154). -/
def execMul8 (vd va : Index) (s : State) : Host.Outcome State Fault Refusal :=
  s.complete (smallMultiple 8 vd va s)

end Sys2Proof.Machine
end

