-- ==== Sys2Proof/Machine/Dispatch.lean ====
section
/-! DEFINITION. One decoded command: steps 2 to 7 of R78, each arm one call of its meaning. -/

namespace Sys2Proof.Machine

def exec (i : Instr) (s : State) : Host.Outcome State Fault Refusal :=
  match i with
  | .psetup ctx => Sys2Proof.Machine.execPsetup ctx s
  | .vnew vd ctx e => Sys2Proof.Machine.execVnew vd ctx e s
  | .vfree vd => Sys2Proof.Machine.execVfree vd s
  | .add vd va vb => Sys2Proof.Machine.execAdd vd va vb s
  | .sub vd va vb => Sys2Proof.Machine.execSub vd va vb s
  | .mul vd va vb => Sys2Proof.Machine.execMul vd va vb s
  | .sqr vd va => Sys2Proof.Machine.execSqr vd va s
  | .inv vd va => Sys2Proof.Machine.execInv vd va s
  | .neg vd va => Sys2Proof.Machine.execNeg vd va s
  | .mul2 vd va => Sys2Proof.Machine.execMul2 vd va s
  | .mul3 vd va => Sys2Proof.Machine.execMul3 vd va s
  | .mul4 vd va => Sys2Proof.Machine.execMul4 vd va s
  | .mul8 vd va => Sys2Proof.Machine.execMul8 vd va s
  | .fixsz vd => Sys2Proof.Machine.execFixsz vd s
  | .value va => Sys2Proof.Machine.execValue va s
  | .ser va => Sys2Proof.Machine.execSer va s
  | .iszero va => Sys2Proof.Machine.execIszero va s
  | .isone va => Sys2Proof.Machine.execIsone va s
  | .eq va vb => Sys2Proof.Machine.execEq va vb s
  | .ne va vb => Sys2Proof.Machine.execNe va vb s

end Sys2Proof.Machine
end

