-- ==== Sys2Proof/Machine/Transact.lean ====
section
/-! DEFINITION. The host's transactions (R51): each is one atomic step. The state given to one has it already taken
off the pending list. -/

namespace Sys2Proof.Machine

/-- HostWriteDIN (R51). -/
def hostWriteDin (i w : Nat) (s : State) : Host.Outcome State Fault Refusal :=
  if i < s.cfg.nMax then
    if w < 2 ^ s.cfg.W then .next (s.setDin i w) else .refused (.wordTooWide w)
  else .refused (.indexOutOfRange .din i)

/-- HostIssue: step 1 of R78, then the command (R51, R78). A word that decodes to no command fails with
IllegalCommand (R74, R75, R185). -/
def hostIssue (c : Word32) (s : State) : Host.Outcome State Fault Refusal :=
  match decode c with
  | .ok i => exec i s
  | .error _ => .next (s.fail .illegalCommand)

/-- HostReadDOUT (R51). -/
def hostReadDout (i : Nat) (s : State) : Host.Outcome State Fault Refusal :=
  if i < s.cfg.nMax then .next (s.reply (s.dout.getD i 0)) else .refused (.indexOutOfRange .dout i)

/-- HostReadBOUT (R51). -/
def hostReadBout (j : Nat) (s : State) : Host.Outcome State Fault Refusal :=
  if j < s.cfg.bytesMax then .next (s.reply (s.bout.getD j 0).toNat) else .refused (.indexOutOfRange .bout j)

/-- HostReset: every element of R40's table at its value (R200). The parameters are no state, and what the host has
still to ask and has been told is the host's (notes/assumptions/17.md). -/
def hostReset (s : State) : State :=
  { State.resetOf s.cfg with pending := s.pending, replies := s.replies }

/-- One transaction of R51's table, or its refusal. -/
def transact (tx : Transaction) (s : State) : Host.Outcome State Fault Refusal :=
  match tx with
  | .hostWriteDIN i w => hostWriteDin i w s
  | .hostIssue c => hostIssue c s
  | .hostReadDOUT i => hostReadDout i s
  | .hostReadBOUT j => hostReadBout j s
  | .hostReadSTATUS => .next (s.reply s.status.toNat)
  | .hostReadERRLOG => .next (s.reply s.errlog.toNat)
  | .hostReadDLEN => .next (s.reply s.dlen.toNat)
  | .hostReadBLEN => .next (s.reply s.blen.toNat)
  | .hostReset => .next (hostReset s)
  | .wrongDirection port => .refused (.wrongDirection port)

/-- The block's next step: the oldest pending transaction, or, when the host asks nothing, nothing: "Between commands
the block holds its state and does nothing" (R196, R201; DEDUCED, safe, notes/assumptions/4.md). -/
def nextTransaction (s : State) : Host.Outcome State Fault Refusal :=
  match s.pending with
  | [] => .next s
  | tx :: rest => transact tx { s with pending := rest }

/-- The host asks for `txs` next. -/
def State.ask (s : State) (txs : List Transaction) : State := { s with pending := txs ++ s.pending }

/-- `HostLoad(x)` (R52). -/
def hostLoad (k : Config) (x : Nat) : List Transaction :=
  (List.range k.nMax).map fun i => .hostWriteDIN i (wordOf k.W x i)

/-- The reads of `HostFetch()` (R52). -/
def hostFetch (k : Config) : List Transaction := (List.range k.nMax).map .hostReadDOUT

end Sys2Proof.Machine
end

