-- ==== Sys2Proof/Machine/Step.lean ====
section
/-! DEFINITION. One step of the machine, and how a command is put where the next step takes it from. -/

namespace Sys2Proof.Machine

/-- One step: one transaction (R51). -/
def step (s : State) : Host.Outcome State Fault Refusal := nextTransaction s

/-- `s` with HostIssue of a word as its next transaction: the block fetches nothing, a command comes with the write to
CMD (R63; notes/assumptions/3.md). -/
def State.withFetchWord (s : State) (nbits w : Nat) : State :=
  s.ask [.hostIssue (tableWord nbits w)]

end Sys2Proof.Machine
end

