-- ==== Sys2Proof/Safety.lean ====
section
/-! DEFINITION. What claims call a good state: the invariants the spec says hold after reset and after every command
(R22, R25, R31, R32 and the widths of R20), and a run in which nothing failed (R199). -/

namespace Sys2Proof.Machine

/-- R22's invariant of a valid context, for parameters `k`. -/
abbrev Context.Valid (k : Config) (c : Context) : Prop :=
  (c.p % 2 = 1 ∧ 1 < c.p ∧ c.p < k.limit) ∧ c.pWords = pwords k.W c.p ∧
    (c.pDash < 2 ^ k.W ∧ c.p % 2 ^ k.W * c.pDash % 2 ^ k.W = 2 ^ k.W - 1) ∧
      (c.R1 = c.R k.W % c.p ∧ c.R2 = c.R k.W ^ 2 % c.p ∧ c.R3 = c.R k.W ^ 3 % c.p)

/-- R25's invariant of a valid value register: its context is valid and `v` is canonical. -/
abbrev State.Holds (s : State) (a : Value) : Prop := ∃ c ∈ s.contextAt a.ctx, a.v < c.p

/-- The sizes and widths of R20, R21, R24, R35 to R37. -/
abbrev State.Shape (s : State) : Prop :=
  (s.contexts.length = s.cfg.nP ∧ s.values.length = s.cfg.nV) ∧
    (s.din.length = s.cfg.nMax ∧ s.dout.length = s.cfg.nMax ∧ s.bout.length = s.cfg.bytesMax) ∧
      ((∀ w ∈ s.din, w < 2 ^ s.cfg.W) ∧ ∀ w ∈ s.dout, w < 2 ^ s.cfg.W)

/-- R31, R32: ERR holds a code of R180, ERRLOG uses bits 1 to 8 only, and the code in ERR has left its bit there. -/
abbrev State.ErrorsOk (s : State) : Prop :=
  s.err.toNat ≤ 8 ∧ s.errlog &&& 0x1FE = s.errlog ∧ (s.err ≠ 0 → s.errlog.getLsbD s.err.toNat = true)

/-- The machine's invariant. -/
abbrev State.Inv (s : State) : Prop :=
  s.cfg.wf ∧ s.Shape ∧ (∀ o ∈ s.contexts, ∀ c ∈ o, Context.Valid s.cfg c) ∧
    (∀ o ∈ s.values, ∀ a ∈ o, s.Holds a) ∧ s.ErrorsOk

/-- No command since reset has failed (R199). -/
abbrev State.NothingFailed (s : State) : Prop := s.errlog = 0

end Sys2Proof.Machine
end

