-- ==== Sys2Proof/Certificates/Slice0/Obligations.lean ====
section
/-! DEFINITION. The statements for the provers, and the words they are written in. `Claims` writes R180's codes, R189's
failure and the checks of R78 afresh from the spec, so that a statement does not merely repeat the model's own text. -/

open Sys2Proof Sys2Proof.Machine

namespace Sys2Proof.Claims

/-- The numbers of R180. -/
def codeOf : ErrorCode → Nat
  | .invalidModulus => 1
  | .mismatchedModulus => 2
  | .notInvertible => 3
  | .malformedRepresentation => 4
  | .illegalCommand => 5
  | .unwritten => 6
  | .contextBusy => 7
  | .operandRange => 8

/-- The state after a command that fails with `e` (R189): the code, its bit of ERRLOG, nothing else. -/
def failed (s : State) (e : ErrorCode) : State :=
  { s with err := BitVec.ofNat 8 (codeOf e), errlog := s.errlog ||| 1#32 <<< codeOf e }

/-- Command `i` fails with `e`. -/
def failsWith (i : Instr) (s : State) (e : ErrorCode) : Prop := exec i s = .next (failed s e)

/-- Every index of the list is a value register (R76). -/
abbrev inRange (s : State) (l : List Index) : Prop := ∀ i ∈ l, i.toNat < s.cfg.nV

/-- The state after a command that writes register `vd` and succeeds (R28, R190). -/
def wrote (s : State) (vd : Index) (ctx v : Nat) : State :=
  { s with values := s.values.set vd.toNat (some { ctx := ctx, v := v }), err := 0 }

/-- The errors of a command with register operands `regs` and the one source `va`, up to its own arithmetic error. -/
def unaryErrors (i : Instr) (s : State) (regs : List Index) (va : Index) : Prop :=
  (¬ inRange s regs → failsWith i s .illegalCommand) ∧
    (inRange s regs → s.valueAt va.toNat = none → failsWith i s .unwritten)

/-- The errors of a command with register operands `regs` and the sources `va`, `vb`. -/
def binaryErrors (i : Instr) (s : State) (regs : List Index) (va vb : Index) : Prop :=
  (¬ inRange s regs → failsWith i s .illegalCommand) ∧
    (inRange s regs → s.valueAt va.toNat = none ∨ s.valueAt vb.toNat = none → failsWith i s .unwritten) ∧
      (inRange s regs → ∀ a b, s.valueAt va.toNat = some a → s.valueAt vb.toNat = some b → a.ctx ≠ b.ctx →
        failsWith i s .mismatchedModulus)

/-- The logical value of representation `v` under context `k` (R17, R26). -/
def logical (k : Context) (v : Nat) : Nat := v * invMod k.R1 k.p % k.p

/-- `double(t)` of R150. -/
def double (p t : Nat) : Nat := if p ≤ 2 * t then 2 * t - p else 2 * t

/-- The last step of `smul(3, ..)` of R150. -/
def triple (p t : Nat) : Nat := if p ≤ double p t + t then double p t + t - p else double p t + t

/-- The command writes a value register, and which (R20's column "written by"). -/
def destination : Instr → Option Index
  | .vnew vd _ _ | .vfree vd | .add vd _ _ | .sub vd _ _ | .mul vd _ _ | .sqr vd _ | .inv vd _ | .neg vd _
  | .mul2 vd _ | .mul3 vd _ | .mul4 vd _ | .mul8 vd _ | .fixsz vd => some vd
  | .psetup _ | .value _ | .ser _ | .iszero _ | .isone _ | .eq _ _ | .ne _ _ => none

/-- The tests of R30, which write `T`. -/
def isTest : Instr → Bool
  | .iszero _ | .isone _ | .eq _ _ | .ne _ _ => true
  | .psetup _ | .vnew _ _ _ | .vfree _ | .add _ _ _ | .sub _ _ _ | .mul _ _ _ | .sqr _ _ | .inv _ _ | .neg _ _
  | .mul2 _ _ | .mul3 _ _ | .mul4 _ _ | .mul8 _ _ | .fixsz _ | .value _ | .ser _ => false

/-- The codes R192 allows each command, 0 among them for success. -/
def allowedCodes : Instr → List Nat
  | .psetup _ => [0, 1, 5, 7]
  | .vnew _ _ false => [0, 4, 5, 6]
  | .vnew _ _ true => [0, 5, 6, 8]
  | .vfree _ => [0, 5]
  | .fixsz _ => [0, 5, 6]
  | .add _ _ _ | .sub _ _ _ | .mul _ _ _ => [0, 2, 5, 6]
  | .sqr _ _ | .neg _ _ | .mul2 _ _ | .mul3 _ _ | .mul4 _ _ | .mul8 _ _ => [0, 5, 6]
  | .inv _ _ => [0, 3, 5, 6]
  | .value _ | .ser _ | .iszero _ | .isone _ => [0, 5, 6]
  | .eq _ _ | .ne _ _ => [0, 2, 5, 6]

/-- The value register operands of a command: its register fields (R71). -/
def regFields : Instr → List Index
  | .psetup _ => []
  | .vnew vd _ _ | .vfree vd | .fixsz vd => [vd]
  | .add vd va vb | .sub vd va vb | .mul vd va vb => [vd, va, vb]
  | .sqr vd va | .inv vd va | .neg vd va | .mul2 vd va | .mul3 vd va | .mul4 vd va | .mul8 vd va => [vd, va]
  | .value va | .ser va | .iszero va | .isone va => [va]
  | .eq va vb | .ne va vb => [va, vb]

/-- The context operand of a command (R71). -/
def ctxFields : Instr → List Index
  | .psetup ctx => [ctx]
  | .vnew _ ctx _ => [ctx]
  | .vfree _ | .fixsz _ | .add _ _ _ | .sub _ _ _ | .mul _ _ _ | .sqr _ _ | .inv _ _ | .neg _ _ | .mul2 _ _
  | .mul3 _ _ | .mul4 _ _ | .mul8 _ _ | .value _ | .ser _ | .iszero _ | .isone _ | .eq _ _ | .ne _ _ => []

/-- The registers step 3 of R78 wants valid. -/
def sources : Instr → List Index
  | .psetup _ | .vnew _ _ _ | .vfree _ => []
  | .fixsz vd => [vd]
  | .add _ va vb | .sub _ va vb | .mul _ va vb | .eq va vb | .ne va vb => [va, vb]
  | .sqr _ va | .inv _ va | .neg _ va | .mul2 _ va | .mul3 _ va | .mul4 _ va | .mul8 _ va
  | .value va | .ser va | .iszero va | .isone va => [va]

/-- Some index of the command is out of range (step 2 of R78, R76). -/
def badIndex (i : Instr) (s : State) : Bool :=
  (regFields i).any (fun r => decide (s.cfg.nV ≤ r.toNat)) || (ctxFields i).any (fun c => decide (s.cfg.nP ≤ c.toNat))

/-- Step 3 of R78. -/
def missing (i : Instr) (s : State) : Bool :=
  (sources i).any (fun r => s.valueAt r.toNat == none) ||
    match i with
    | .vnew _ ctx _ => s.contextAt ctx.toNat == none
    | _ => false

/-- Step 4 of R78. -/
def busy (i : Instr) (s : State) : Bool :=
  match i with
  | .psetup ctx => s.values.any fun o => o.any fun a => a.ctx == ctx.toNat
  | _ => false

/-- Step 5 of R78: two sources of different contexts. -/
def mismatched (i : Instr) (s : State) : Bool :=
  match sources i with
  | [va, vb] => (s.valueAt va.toNat).map (·.ctx) != (s.valueAt vb.toNat).map (·.ctx)
  | _ => false

/-- Step 6 of R78: the command's own check, with the code it raises. -/
def ownError (i : Instr) (s : State) : Option ErrorCode :=
  match i with
  | .psetup _ => if s.dinInt % 2 = 0 ∨ s.dinInt = 1 then some .invalidModulus else none
  | .vnew _ ctx false =>
    if (s.contextAt ctx.toNat).any (fun k => decide (k.p ≤ s.dinInt)) then some .malformedRepresentation else none
  | .vnew _ ctx true =>
    if (s.contextAt ctx.toNat).any (fun k => decide (2 ^ (k.pWords * s.cfg.W) ≤ s.dinInt)) then some .operandRange
    else none
  | .inv _ va =>
    if (s.valueAt va.toNat).any (fun a => (s.contextAt a.ctx).any (fun k => Nat.gcd (logical k a.v) k.p != 1)) then
      some .notInvertible
    else none
  | _ => none

/-- The first check of R78, steps 2 to 6, that command `i` fails in `s` (R191). -/
def firstError (i : Instr) (s : State) : Option ErrorCode :=
  if badIndex i s then some .illegalCommand
  else if missing i s then some .unwritten
  else if busy i s then some .contextBusy
  else if mismatched i s then some .mismatchedModulus
  else ownError i s

/-- The reserved opcodes as R74 lists them. -/
abbrev reservedOpcode (op : Nat) : Prop :=
  op = 0x00 ∨ (0x04 ≤ op ∧ op ≤ 0x0F) ∨ op = 0x16 ∨ op = 0x17 ∨ (0x1D ≤ op ∧ op ≤ 0x1F) ∨
    (0x22 ≤ op ∧ op ≤ 0x27) ∨ (0x2C ≤ op ∧ op ≤ 0xFF)

/-- The transactions of R51's table, for parameters `k`. -/
def inTable (k : Config) : Transaction → Prop
  | .hostWriteDIN i w => i < k.nMax ∧ w < 2 ^ k.W
  | .hostReadDOUT i => i < k.nMax
  | .hostReadBOUT j => j < (k.nMax * k.W + 7) / 8
  | .hostIssue _ | .hostReadSTATUS | .hostReadERRLOG | .hostReadDLEN | .hostReadBLEN | .hostReset => True
  | .wrongDirection _ => False

/-- `n` steps, all of them to a next state, lead from `s` to `t`. -/
def stepsTo : Nat → State → State → Prop
  | 0, s, t => t = s
  | n + 1, s, t => ∃ u, step s = .next u ∧ stepsTo n u t

/-- `s` with every context's R3 changed by `f`. -/
def mapThirdPower (f : Nat → Nat) (s : State) : State :=
  { s with contexts := s.contexts.map fun o => o.map fun k => { k with R3 := f k.R3 } }

/-- `s` with other output registers: what only the host reads (R20). -/
def withOutputs (s : State) (t : Bool) (err : BitVec 8) (errlog : Word32) (dout : List Nat) (dlen : Word32)
    (bout : List Byte) (blen : Word32) : State :=
  { s with t := t, err := err, errlog := errlog, dout := dout, dlen := dlen, bout := bout, blen := blen }

end Sys2Proof.Claims

open Sys2Proof.Claims

/-! ## Encoding -/

/-- Assembling a command and decoding the word gives the command back: no bit of an encoding is dropped (R71, R73, R80). -/
def Obligations.DecodeOfEncodeIsTheCommand : Prop := ∀ i : Instr, decode (encode i) = .ok i

/-- Every word that is a command is that command's own encoding: a word has one meaning and no reserved bit is
ignored (R75, R77). -/
def Obligations.DecodedWordIsItsEncoding : Prop := ∀ (c : Word32) (i : Instr), decode c = .ok i → encode i = c

/-- R73: a word is the command of a row exactly when the mask picks the row's pattern out of it, and no word matches
two rows. -/
def Obligations.DecodeAgreesWithOpcodeMap : Prop :=
  (∀ (c : Word32), ∀ r ∈ opcodeRows,
    c &&& r.mask = r.pattern ↔ ∃ i, decode c = .ok i ∧ i.mnemonic = r.mnemonic) ∧
    ∀ (c : Word32), ∀ r ∈ opcodeRows, ∀ r' ∈ opcodeRows,
      c &&& r.mask = r.pattern → c &&& r'.mask = r'.pattern → r = r'

/-- R74, R75: a word with a reserved opcode, and a word of a listed opcode that matches no row of R73, fails with
IllegalCommand and changes nothing else. -/
def Obligations.ReservedWordsFailIllegal : Prop :=
  ∀ (s : State) (c : Word32),
    (reservedOpcode (c.toNat / 2 ^ 24) ∨ ∀ r ∈ opcodeRows, c &&& r.mask ≠ r.pattern) →
      hostIssue c s = .next (failed s .illegalCommand)

/-- R76: a command with an index outside its register file fails with IllegalCommand and changes nothing else; with
256 registers and 256 contexts no index is outside. -/
def Obligations.OutOfRangeIndexFailsIllegal : Prop :=
  ∀ (s : State) (i : Instr),
    ((∃ r ∈ regFields i, s.cfg.nV ≤ r.toNat) ∨ (∃ c ∈ ctxFields i, s.cfg.nP ≤ c.toNat) →
        failsWith i s .illegalCommand) ∧
      (s.cfg.nV = 256 → ∀ r ∈ regFields i, r.toNat < s.cfg.nV) ∧
        (s.cfg.nP = 256 → ∀ c ∈ ctxFields i, c.toNat < s.cfg.nP)

/-- The worked encodings of R80, and the sum R80 assembles a word by. -/
def Obligations.WorkedEncodings : Prop :=
  (decode 0x01000100 = .ok (.psetup 1) ∧ decode 0x02030001 = .ok (.vnew 3 0 true) ∧
    decode 0x03030000 = .ok (.vfree 3) ∧ decode 0x10020001 = .ok (.add 2 0 1) ∧
      decode 0x13030300 = .ok (.sqr 3 3) ∧ decode 0x20000200 = .ok (.value 2) ∧
        decode 0x2A000001 = .ok (.eq 0 1)) ∧
    ∀ op rd ra rb : Byte, (pack op rd ra rb).toNat =
      op.toNat * 2 ^ 24 + rd.toNat * 2 ^ 16 + ra.toNat * 2 ^ 8 + rb.toNat

/-! ## Steps, transactions and errors -/

/-- When the next transaction issues a word that is a command, the step is that command's `exec` on the state with the
transaction taken off the list; and so for a word placed by `withFetchWord`. That transactions come from a list is the
model's choice (notes/assumptions/3.md). -/
def Obligations.StepRunsTheIssuedCommand : Prop :=
  ∀ (s : State) (c : Word32) (i : Instr), decode c = .ok i →
    (∀ rest, s.pending = .hostIssue c :: rest → step s = exec i { s with pending := rest }) ∧
      step (s.withFetchWord 32 c.toNat) = exec i s

/-- R51's table, transaction by transaction: its effect on the state, what it returns, and that a transaction outside
the table has no step. With no transaction waiting the block holds its state (R196). What HostIssue's command does is
the subject of the other statements; what `State.resetOf` is, of HostResetClearsEverything. The list of transactions,
the list of replies, the idle step and what a reset leaves of the host's lists are the model's choices
(notes/assumptions/3.md, 5.md, 4.md, 17.md). -/
def Obligations.HostTransactionEffects : Prop :=
  ∀ (s : State) (rest : List Transaction),
    (∀ i w, i < s.cfg.nMax → w < 2 ^ s.cfg.W →
      step { s with pending := .hostWriteDIN i w :: rest } = .next { s with din := s.din.set i w, pending := rest }) ∧
    (∀ i, i < s.cfg.nMax → ∀ w, s.dout[i]? = some w →
      step { s with pending := .hostReadDOUT i :: rest } = .next { s with pending := rest, replies := w :: s.replies }) ∧
    (∀ j, j < (s.cfg.nMax * s.cfg.W + 7) / 8 → ∀ b, s.bout[j]? = some b →
      step { s with pending := .hostReadBOUT j :: rest } =
        .next { s with pending := rest, replies := b.toNat :: s.replies }) ∧
    step { s with pending := .hostReadSTATUS :: rest } =
      .next { s with pending := rest, replies := (s.err.toNat * 256 + s.t.toNat) :: s.replies } ∧
    step { s with pending := .hostReadERRLOG :: rest } =
      .next { s with pending := rest, replies := s.errlog.toNat :: s.replies } ∧
    step { s with pending := .hostReadDLEN :: rest } =
      .next { s with pending := rest, replies := s.dlen.toNat :: s.replies } ∧
    step { s with pending := .hostReadBLEN :: rest } =
      .next { s with pending := rest, replies := s.blen.toNat :: s.replies } ∧
    (∀ c, step { s with pending := .hostIssue c :: rest } = hostIssue c { s with pending := rest }) ∧
    step { s with pending := .hostReset :: rest } =
      .next { State.resetOf s.cfg with pending := rest, replies := s.replies } ∧
    (∀ tx, ¬ inTable s.cfg tx → ∃ r, step { s with pending := tx :: rest } = .refused r) ∧
    step { s with pending := [] } = .next { s with pending := [] }

/-- Every transaction of R51's table completes, whatever the state and whatever the command word: no behaviour of the
block is stuck, and the model refuses nothing else. -/
def Obligations.DefinedTransactionsComplete : Prop :=
  ∀ (s : State) (tx : Transaction), (∃ t, transact tx s = .next t) ↔ inTable s.cfg tx

/-- R40, R200: HostReset, in any state, puts every element of the block at its reset value. -/
def Obligations.HostResetClearsEverything : Prop :=
  ∀ (s : State) (rest : List Transaction), ∃ t, step { s with pending := .hostReset :: rest } = .next t ∧
    (∀ c, t.contextAt c = none) ∧ (∀ i, t.valueAt i = none) ∧ t.t = false ∧ t.err = 0 ∧ t.errlog = 0 ∧
      t.din = List.replicate s.cfg.nMax 0 ∧ t.dout = List.replicate s.cfg.nMax 0 ∧ t.dlen = 0 ∧
        t.bout = List.replicate ((s.cfg.nMax * s.cfg.W + 7) / 8) 0 ∧ t.blen = 0 ∧
          t.contexts.length = s.cfg.nP ∧ t.values.length = s.cfg.nV

/-- From R52: from any state that meets the invariant, after the writes `DIN[i] <- word(x, i)` for the indices of any
list `l`, in its order, `Int(DIN)` is `x` and nothing but DIN has changed, if the words outside the list already hold
what they should; HostLoad(x) is such a list, of all the indices. HostFetch returns the words of DOUT, which assemble to
`Int(DOUT)`, and changes nothing of the block. That the host's transactions come from a list, and that what reads return
stands newest first in the list of replies, are the model's choices (notes/assumptions/3.md, 5.md). -/
def Obligations.HostLoadAndHostFetch : Prop :=
  ∀ s : State, s.Inv →
    (∀ (x : Nat) (l : List Nat), x < 2 ^ (s.cfg.nMax * s.cfg.W) → (∀ i ∈ l, i < s.cfg.nMax) →
      (∀ i, i < s.cfg.nMax → i ∉ l → s.din[i]? = some (wordOf s.cfg.W x i)) →
        ∃ t, stepsTo l.length (s.ask (l.map fun i => .hostWriteDIN i (wordOf s.cfg.W x i))) t ∧ t.dinInt = x ∧
          t = { s with din := t.din }) ∧
    (∀ x, hostLoad s.cfg x = (List.range s.cfg.nMax).map fun i => .hostWriteDIN i (wordOf s.cfg.W x i)) ∧
    ∃ t, stepsTo s.cfg.nMax (s.ask (hostFetch s.cfg)) t ∧ t = { s with replies := t.replies } ∧
      t.replies = s.dout.reverse ++ s.replies ∧
        intOf s.cfg.W (t.replies.take s.cfg.nMax).reverse = intOf s.cfg.W s.dout

/-- R31: bit 0 of STATUS is T, bits 15:8 are ERR, every other bit reads as 0. -/
def Obligations.StatusWordLayout : Prop :=
  ∀ s : State, s.status.getLsbD 0 = s.t ∧ s.status.extractLsb' 1 7 = 0 ∧ s.status.extractLsb' 8 8 = s.err ∧
    s.status.extractLsb' 16 16 = 0

/-- R189: a command word that ends with a code other than 0 changes ERR, that code's bit of ERRLOG, and nothing else. -/
def Obligations.FailingCommandWritesOnlyItsError : Prop :=
  ∀ (s t : State) (c : Word32), hostIssue c s = .next t → t.err ≠ 0 →
    t.err.toNat ≤ 8 ∧ t.errlog = s.errlog ||| 1#32 <<< t.err.toNat ∧
      t = { s with err := t.err, errlog := t.errlog }

/-- R190: a command that ends with code 0 leaves ERRLOG as it was. -/
def Obligations.SuccessKeepsErrorLog : Prop :=
  ∀ (s t : State) (c : Word32), hostIssue c s = .next t → t.err = 0 → t.errlog = s.errlog

/-- R78, R191: the code a command ends with is that of the first check it fails, in the order IllegalCommand (decode,
then index range), Unwritten, ContextBusy, MismatchedModulus, its own arithmetic error; a command that fails none
succeeds. For every command word and every state that meets the invariant. -/
def Obligations.FirstFailingCheckDecides : Prop :=
  ∀ (s : State) (c : Word32), s.Inv →
    (∀ e, decode c = .error e → hostIssue c s = .next (failed s .illegalCommand)) ∧
      ∀ i, decode c = .ok i →
        (∀ e, firstError i s = some e → hostIssue c s = .next (failed s e)) ∧
          (firstError i s = none → ∃ t, hostIssue c s = .next t ∧ t.err = 0 ∧ t.errlog = s.errlog)

/-- R192: no command ends with a code its row of the table does not mark. For every state. -/
def Obligations.CommandsEndOnlyWithTheirCodes : Prop :=
  ∀ (s t : State) (i : Instr), exec i s = .next t → t.err.toNat ∈ allowedCodes i

/-- R32: a bit of ERRLOG that is set stays set through every step but HostReset, which clears them all; a bit becomes
set only by a command that ends with that code, and a command that ends with a code sets its bit; only bits 1 to 8 are
ever set; after reset none is. -/
def Obligations.ErrorLogIsSticky : Prop :=
  ∀ s t : State, s.Inv → step s = .next t →
    (s.pending.head? ≠ some .hostReset → ∀ b, s.errlog.getLsbD b = true → t.errlog.getLsbD b = true) ∧
      (s.pending.head? = some .hostReset → t.errlog = 0) ∧
      (∀ b, t.errlog.getLsbD b = true → s.errlog.getLsbD b = false →
        b = t.err.toNat ∧ ∃ c, s.pending.head? = some (.hostIssue c)) ∧
      (∀ b, t.errlog.getLsbD b = true → 1 ≤ b ∧ b ≤ 8) ∧ (t.err ≠ 0 → t.errlog.getLsbD t.err.toNat = true) ∧
      ∀ k, (State.resetOf k).errlog = 0

/-! ## Invariants -/

/-- Every step keeps the machine's invariant: valid contexts meet R22, valid value registers meet R25, the buffers keep
their sizes and widths, ERR and ERRLOG their ranges. -/
def Obligations.EveryStepKeepsInvariant : Prop := ∀ s t : State, s.Inv → step s = .next t → t.Inv

/-- The invariant holds after reset, for every choice of the parameters R6 allows, State.reset's among them. -/
def Obligations.ResetMeetsInvariant : Prop :=
  (∀ k : Config, k.wf → (State.resetOf k).Inv) ∧ State.reset.Inv

/-- What R22 says follows from its invariant: `2^((p_words-1)*W) <= p < R`, `gcd(R, p) = 1`, and R1, R2, R3 are below
`p`; and `p_words` is between 1 and N_MAX (R21, R101). -/
def Obligations.ValidContextBounds : Prop :=
  ∀ (k : Config) (c : Context), k.wf → Context.Valid k c →
    2 ^ ((c.pWords - 1) * k.W) ≤ c.p ∧ c.p < c.R k.W ∧ Nat.gcd (c.R k.W) c.p = 1 ∧
      c.R1 < c.p ∧ c.R2 < c.p ∧ c.R3 < c.p ∧ 1 ≤ c.pWords ∧ c.pWords ≤ k.nMax

/-- R25's word count: a valid value register has zero in every word from `p_words` up. -/
def Obligations.ValuesFitTheirWords : Prop :=
  ∀ (s : State) (i : Nat) (a : Value) (c : Context), s.Inv → s.valueAt i = some a → s.contextAt a.ctx = some c →
    ∀ j, c.pWords ≤ j → wordOf s.cfg.W a.v j = 0

/-- R23: a context changes only by PSETUP naming it or by HostReset, and never while a valid value register references
it, but by HostReset. -/
def Obligations.ContextsChangeOnlyBySetup : Prop :=
  ∀ (s t : State) (c : Nat), step s = .next t → s.pending.head? ≠ some .hostReset →
    t.contextAt c ≠ s.contextAt c →
      s.referenced c = false ∧
        ∃ w ctx, s.pending.head? = some (.hostIssue w) ∧ decode w = .ok (.psetup ctx) ∧ ctx.toNat = c

/-- R6, R30, R35, R36, R37: no step changes the parameters; and of the steps that are not HostReset, only HostWriteDIN
changes DIN, only VALUE DOUT and DLEN, only SER BOUT and BLEN, only a test T, only a command ERR and ERRLOG. -/
def Obligations.EachBufferHasOneWriter : Prop :=
  ∀ s t : State, step s = .next t → t.cfg = s.cfg ∧ (s.pending.head? ≠ some .hostReset →
    (t.din ≠ s.din → ∃ i w, s.pending.head? = some (.hostWriteDIN i w)) ∧
      (t.dout ≠ s.dout ∨ t.dlen ≠ s.dlen →
        ∃ w va, s.pending.head? = some (.hostIssue w) ∧ decode w = .ok (.value va)) ∧
      (t.bout ≠ s.bout ∨ t.blen ≠ s.blen →
        ∃ w va, s.pending.head? = some (.hostIssue w) ∧ decode w = .ok (.ser va)) ∧
      (t.t ≠ s.t → ∃ w i, s.pending.head? = some (.hostIssue w) ∧ decode w = .ok i ∧ isTest i = true) ∧
      (t.err ≠ s.err ∨ t.errlog ≠ s.errlog → ∃ w, s.pending.head? = some (.hostIssue w)))

/-! ## Frames -/

/-- Frame of the commands that write a value register (VNEW, VFREE, ADD, SUB, MUL, SQR, INV, NEG, MUL2, MUL3, MUL4,
MUL8, FIXSZ): every other value register, every context, T, DIN, DOUT, DLEN, BOUT, BLEN, the parameters and the host's
lists are unchanged, and ERRLOG too when they succeed. -/
def Obligations.RegisterWritersFrame : Prop :=
  ∀ (s t : State) (i : Instr) (vd : Index), destination i = some vd → exec i s = .next t →
    (∀ j, j ≠ vd.toNat → t.valueAt j = s.valueAt j) ∧ t.values.length = s.values.length ∧
      t.contexts = s.contexts ∧ t.t = s.t ∧ t.din = s.din ∧ t.dout = s.dout ∧ t.dlen = s.dlen ∧
        t.bout = s.bout ∧ t.blen = s.blen ∧ t.cfg = s.cfg ∧ t.pending = s.pending ∧ t.replies = s.replies ∧
          (t.err = 0 → t.errlog = s.errlog)

/-- Frame of the commands that write no value register and no context (VALUE, SER, ISZERO, ISONE, EQ, NE): the value
registers, the contexts, DIN, the parameters and the host's lists are unchanged; VALUE leaves T, BOUT, BLEN; SER leaves
T, DOUT, DLEN; the tests leave all four buffers. -/
def Obligations.ReadersFrame : Prop :=
  ∀ (s t : State) (i : Instr), destination i = none → (∀ ctx, i ≠ .psetup ctx) → exec i s = .next t →
    t.values = s.values ∧ t.contexts = s.contexts ∧ t.din = s.din ∧ t.cfg = s.cfg ∧ t.pending = s.pending ∧
      t.replies = s.replies ∧ (t.err = 0 → t.errlog = s.errlog) ∧ (isTest i = false → t.t = s.t) ∧
        ((∀ va, i ≠ .value va) → t.dout = s.dout ∧ t.dlen = s.dlen) ∧
          ((∀ va, i ≠ .ser va) → t.bout = s.bout ∧ t.blen = s.blen)

/-- Frame of PSETUP: every other context, the value registers, T, DIN, DOUT, DLEN, BOUT, BLEN, the parameters and the
host's lists are unchanged, and ERRLOG too when it succeeds. -/
def Obligations.SetupFrame : Prop :=
  ∀ (s t : State) (ctx : Index), exec (.psetup ctx) s = .next t →
    (∀ c, c ≠ ctx.toNat → t.contextAt c = s.contextAt c) ∧ t.contexts.length = s.contexts.length ∧
      t.values = s.values ∧ t.t = s.t ∧ t.din = s.din ∧ t.dout = s.dout ∧ t.dlen = s.dlen ∧ t.bout = s.bout ∧
        t.blen = s.blen ∧ t.cfg = s.cfg ∧ t.pending = s.pending ∧ t.replies = s.replies ∧
          (t.err = 0 → t.errlog = s.errlog)

/-- No command's behaviour depends on T (R30), nor on anything else that only the host reads: with other values in T,
ERR, ERRLOG, DOUT, DLEN, BOUT and BLEN a command writes the same registers and contexts and ends with the same code. -/
def Obligations.OutputsNeverInfluenceCommands : Prop :=
  ∀ (s u : State) (i : Instr) (t : Bool) (err : BitVec 8) (errlog : Word32) (dout : List Nat) (dlen : Word32)
    (bout : List Byte) (blen : Word32), exec i s = .next u →
      ∃ u', exec i (withOutputs s t err errlog dout dlen bout blen) = .next u' ∧
        u'.values = u.values ∧ u'.contexts = u.contexts ∧ u'.err = u.err ∧
          (u.err = 0 → (isTest i = true → u'.t = u.t) ∧
            ((∃ va, i = .value va) → u'.dout = u.dout ∧ u'.dlen = u.dlen) ∧
              ((∃ va, i = .ser va) → u'.bout = u.bout ∧ u'.blen = u.blen))

/-- No command reads a context's R3 (R100's closing note): changing it in every context changes nothing else a command
does, and a context PSETUP constructs is the same. -/
def Obligations.ThirdPowerIsNeverRead : Prop :=
  ∀ (s u : State) (i : Instr) (f : Nat → Nat), exec i s = .next u →
    ∃ u', exec i (mapThirdPower f s) = .next u' ∧ u'.values = u.values ∧ u'.t = u.t ∧ u'.err = u.err ∧
      u'.errlog = u.errlog ∧ u'.dout = u.dout ∧ u'.dlen = u.dlen ∧ u'.bout = u.bout ∧ u'.blen = u.blen ∧
        ((∀ ctx, i ≠ .psetup ctx) → u'.contexts = (mapThirdPower f u).contexts) ∧
          ∀ ctx, i = .psetup ctx → u.err = 0 → u'.contextAt ctx.toNat = u.contextAt ctx.toNat

/-! ## Arithmetic -/

/-- `inv_mod(x, m)` of R12 is the one `y` in `1..m-1` with `(x*y) mod m = 1`, whenever `gcd(x, m) = 1` and `m > 1`. -/
def Obligations.InvModIsTheUniqueInverse : Prop :=
  ∀ x m : Nat, 1 < m → Nat.gcd x m = 1 →
    (1 ≤ invMod x m ∧ invMod x m < m ∧ x * invMod x m % m = 1) ∧
      ∀ y, y < m → x * y % m = 1 → y = invMod x m

/-- R102: for odd `p` and every word width, `p_dash` is the one word `d` with `((p mod 2^W) * d + 1) mod 2^W = 0`, and
R102's closed form in `inv_mod` gives it. -/
def Obligations.PdashIsTheUniqueWord : Prop :=
  ∀ W p : Nat, 1 ≤ W → p % 2 = 1 →
    (pdash W p < 2 ^ W ∧ (p % 2 ^ W * pdash W p + 1) % 2 ^ W = 0) ∧
      pdash W p = (2 ^ W - invMod (p % 2 ^ W) (2 ^ W)) % 2 ^ W ∧
      ∀ d, d < 2 ^ W → (p % 2 ^ W * d + 1) % 2 ^ W = 0 → d = pdash W p

/-- R111: for every valid context and every `x < R*p`, the accumulator after `p_words` passes is below `2p`, and
`redc` is `x * R^{-1} mod p`, in `[0, p)`. -/
def Obligations.RedcDividesByR : Prop :=
  ∀ (k : Config) (c : Context) (x : Nat), k.wf → Context.Valid k c → x < c.R k.W * c.p →
    redcLoop k.W c.p c.pDash c.pWords x < 2 * c.p ∧
      c.redc k.W x = x * invMod c.R1 c.p % c.p ∧ c.redc k.W x < c.p

/-- The bounds R112 lists, as facts about numbers under a valid context: a product of two representations, one
representation, a number below R times R2 and a number below p times R2 are each below R*p. Which of them a command
hands to `redc` is the subject of RedcArgumentsOfCommandsAreInDomain. -/
def Obligations.RedcCallSitesAreInDomain : Prop :=
  ∀ (k : Config) (c : Context), k.wf → Context.Valid k c →
    (∀ a b, a < c.p → b < c.p → a * b < c.R k.W * c.p) ∧ (∀ a, a < c.p → a < c.R k.W * c.p) ∧
      (∀ x, x < c.R k.W → x * c.R2 < c.R k.W * c.p) ∧ ∀ y, y < c.p → y * c.R2 < c.R k.W * c.p

/-- R116, R131: the Montgomery product identity, domain exit and domain entry. -/
def Obligations.MontgomeryProductIdentity : Prop :=
  ∀ (k : Config) (c : Context), k.wf → Context.Valid k c →
    (∀ x y, c.redc k.W (x * c.R k.W % c.p * (y * c.R k.W % c.p)) = x * y * c.R k.W % c.p) ∧
      (∀ x, x < c.p → c.redc k.W (x * c.R k.W % c.p) = x) ∧
        ∀ x, x < c.R k.W → c.redc k.W (x * c.R2) = x * c.R k.W % c.p

/-- R26: the map from logical value to representation is a bijection of `[0, p)`, and `logical` is its inverse. -/
def Obligations.RepresentationIsABijection : Prop :=
  ∀ (k : Config) (c : Context), k.wf → Context.Valid k c →
    (∀ x, x < c.p → logical c (x * c.R k.W % c.p) = x) ∧
      ∀ v, v < c.p → logical c v < c.p ∧ logical c v * c.R k.W % c.p = v

/-- R150: `(j*v) mod p` for j = 2, 3, 4, 8 is what shifts, additions and conditional subtractions give, each of them
taking a canonical value to a canonical value; under every valid context it is the representation of `j` times the
logical value. -/
def Obligations.SmallMultiplesByDoubling : Prop :=
  (∀ p v : Nat, v < p →
    smul 2 v p = double p v ∧ smul 3 v p = triple p v ∧ smul 4 v p = double p (double p v) ∧
      smul 8 v p = double p (double p (double p v)) ∧ double p v < p ∧ triple p v < p) ∧
    ∀ (k : Config) (c : Context) (j v : Nat), k.wf → Context.Valid k c → j ∈ [2, 3, 4, 8] → v < c.p →
      smul j v c.p = j * v % c.p ∧ logical c (smul j v c.p) = j * logical c v % c.p

/-- R126: the route of R125 (leave, invert, re-enter by R2), the closed form and the route by R3 give one result, and
`gcd(x, p) = gcd(v, p)` (R125 (e)). -/
def Obligations.InverseRoutesAgree : Prop :=
  ∀ (k : Config) (c : Context) (v : Nat), k.wf → Context.Valid k c → v < c.p →
    Nat.gcd (c.redc k.W v) c.p = Nat.gcd v c.p ∧
      (Nat.gcd v c.p = 1 →
        c.enter k.W (invMod (c.redc k.W v) c.p) = invMod (c.redc k.W v) c.p * c.R k.W % c.p ∧
          c.enter k.W (invMod (c.redc k.W v) c.p) = c.redc k.W (invMod v c.p * c.R3))

/-! ## The commands. Each statement holds in every state that meets the invariant, gives the encoding, the errors, and
the whole next state on success. -/

/-- R100: PSETUP. -/
def Obligations.SetupConstructsParameters : Prop :=
  ∀ (s : State) (ctx : Index), s.Inv →
    decode (pack 0x01 0 ctx 0) = .ok (.psetup ctx) ∧
    (s.cfg.nP ≤ ctx.toNat → failsWith (.psetup ctx) s .illegalCommand) ∧
    (ctx.toNat < s.cfg.nP → (∃ i a, s.valueAt i = some a ∧ a.ctx = ctx.toNat) →
      failsWith (.psetup ctx) s .contextBusy) ∧
    (ctx.toNat < s.cfg.nP → (¬ ∃ i a, s.valueAt i = some a ∧ a.ctx = ctx.toNat) →
      (s.dinInt = 0 ∨ s.dinInt % 2 = 0 ∨ s.dinInt = 1 → failsWith (.psetup ctx) s .invalidModulus) ∧
      (s.dinInt % 2 = 1 → s.dinInt ≠ 1 → ∃ n d R,
        n = (bitlen s.dinInt + s.cfg.W - 1) / s.cfg.W ∧ R = 2 ^ (n * s.cfg.W) ∧
        (d < 2 ^ s.cfg.W ∧ (s.dinInt % 2 ^ s.cfg.W * d + 1) % 2 ^ s.cfg.W = 0) ∧
        exec (.psetup ctx) s = .next { s with
          contexts := s.contexts.set ctx.toNat (some { p := s.dinInt, pWords := n, pDash := d, R1 := R % s.dinInt,
                                                       R2 := R ^ 2 % s.dinInt, R3 := R ^ 3 % s.dinInt })
          err := 0 }))

/-- R130: VNEW, with and without domain entry. -/
def Obligations.NewConstructsAValue : Prop :=
  ∀ (s : State) (vd ctx : Index) (e : Bool), s.Inv →
    decode (pack 0x02 vd ctx (if e then 1 else 0)) = .ok (.vnew vd ctx e) ∧
    (∀ rb : Byte, rb &&& 0xFE ≠ 0 → hostIssue (pack 0x02 vd ctx rb) s = .next (failed s .illegalCommand)) ∧
    (s.cfg.nV ≤ vd.toNat ∨ s.cfg.nP ≤ ctx.toNat → failsWith (.vnew vd ctx e) s .illegalCommand) ∧
    (vd.toNat < s.cfg.nV → ctx.toNat < s.cfg.nP →
      (s.contextAt ctx.toNat = none → failsWith (.vnew vd ctx e) s .unwritten) ∧
      ∀ k, s.contextAt ctx.toNat = some k →
        (e = false → k.p ≤ s.dinInt → failsWith (.vnew vd ctx e) s .malformedRepresentation) ∧
        (e = false → s.dinInt < k.p →
          exec (.vnew vd ctx e) s = .next (wrote s vd ctx.toNat s.dinInt)) ∧
        (e = true → k.R s.cfg.W ≤ s.dinInt → failsWith (.vnew vd ctx e) s .operandRange) ∧
        (e = true → s.dinInt < k.R s.cfg.W →
          exec (.vnew vd ctx e) s = .next (wrote s vd ctx.toNat (s.dinInt * k.R s.cfg.W % k.p)) ∧
            k.redc s.cfg.W (s.dinInt * k.R2) = s.dinInt * k.R s.cfg.W % k.p ∧
              logical k (s.dinInt * k.R s.cfg.W % k.p) = s.dinInt % k.p))

/-- R132: VFREE succeeds on every register, valid or not; it then holds no value; an invalid one changes nothing but
ERR; and when no other register references its context, the context is referenced no longer and stays as it was. -/
def Obligations.FreeDestroysAValue : Prop :=
  ∀ (s : State) (vd : Index), s.Inv →
    decode (pack 0x03 vd 0 0) = .ok (.vfree vd) ∧
    (s.cfg.nV ≤ vd.toNat → failsWith (.vfree vd) s .illegalCommand) ∧
    (vd.toNat < s.cfg.nV → ∃ t, exec (.vfree vd) s = .next t ∧
      t = { s with values := s.values.set vd.toNat none, err := 0 } ∧ t.valueAt vd.toNat = none ∧
      (s.valueAt vd.toNat = none → t = { s with err := 0 }) ∧
      ∀ c, (∀ i a, i ≠ vd.toNat → s.valueAt i = some a → a.ctx ≠ c) →
        t.referenced c = false ∧ t.contextAt c = s.contextAt c)

/-- R133: FIXSZ of a valid register changes no state but ERR. -/
def Obligations.FixSizeChangesNothing : Prop :=
  ∀ (s : State) (vd : Index), s.Inv →
    decode (pack 0x1C vd 0 0) = .ok (.fixsz vd) ∧ unaryErrors (.fixsz vd) s [vd] vd ∧
    ∀ a, inRange s [vd] → s.valueAt vd.toNat = some a → exec (.fixsz vd) s = .next { s with err := 0 }

/-- R140: ADD. -/
def Obligations.AddIsModularAddition : Prop :=
  ∀ (s : State) (vd va vb : Index), s.Inv →
    decode (pack 0x10 vd va vb) = .ok (.add vd va vb) ∧ binaryErrors (.add vd va vb) s [vd, va, vb] va vb ∧
    ∀ a b k, inRange s [vd, va, vb] → s.valueAt va.toNat = some a → s.valueAt vb.toNat = some b →
      a.ctx = b.ctx → s.contextAt a.ctx = some k →
        ∃ v, exec (.add vd va vb) s = .next (wrote s vd a.ctx v) ∧
          v = (if k.p ≤ a.v + b.v then a.v + b.v - k.p else a.v + b.v) ∧ v < k.p ∧
            v = (a.v + b.v) % k.p ∧ logical k v = (logical k a.v + logical k b.v) % k.p

/-- R141: SUB. -/
def Obligations.SubIsModularSubtraction : Prop :=
  ∀ (s : State) (vd va vb : Index), s.Inv →
    decode (pack 0x11 vd va vb) = .ok (.sub vd va vb) ∧ binaryErrors (.sub vd va vb) s [vd, va, vb] va vb ∧
    ∀ a b k, inRange s [vd, va, vb] → s.valueAt va.toNat = some a → s.valueAt vb.toNat = some b →
      a.ctx = b.ctx → s.contextAt a.ctx = some k →
        ∃ v, exec (.sub vd va vb) s = .next (wrote s vd a.ctx v) ∧
          v = (if b.v ≤ a.v then a.v - b.v else a.v + k.p - b.v) ∧ v < k.p ∧
            (v + b.v) % k.p = a.v ∧ (logical k v + logical k b.v) % k.p = logical k a.v

/-- R142: NEG. -/
def Obligations.NegIsAdditiveInverse : Prop :=
  ∀ (s : State) (vd va : Index), s.Inv →
    decode (pack 0x15 vd va 0) = .ok (.neg vd va) ∧ unaryErrors (.neg vd va) s [vd, va] va ∧
    ∀ a k, inRange s [vd, va] → s.valueAt va.toNat = some a → s.contextAt a.ctx = some k →
      ∃ v, exec (.neg vd va) s = .next (wrote s vd a.ctx v) ∧
        v = (if a.v = 0 then 0 else k.p - a.v) ∧ v < k.p ∧ (v + a.v) % k.p = 0 ∧
          (logical k v + logical k a.v) % k.p = 0 ∧ (if v = 0 then 0 else k.p - v) = a.v

/-- R113: MUL. -/
def Obligations.MulIsMontgomeryMultiplication : Prop :=
  ∀ (s : State) (vd va vb : Index), s.Inv →
    decode (pack 0x12 vd va vb) = .ok (.mul vd va vb) ∧ binaryErrors (.mul vd va vb) s [vd, va, vb] va vb ∧
    ∀ a b k, inRange s [vd, va, vb] → s.valueAt va.toNat = some a → s.valueAt vb.toNat = some b →
      a.ctx = b.ctx → s.contextAt a.ctx = some k →
        ∃ v, exec (.mul vd va vb) s = .next (wrote s vd a.ctx v) ∧ v = k.redc s.cfg.W (a.v * b.v) ∧ v < k.p ∧
          v = a.v * b.v * invMod k.R1 k.p % k.p ∧ logical k v = logical k a.v * logical k b.v % k.p ∧
            (a.v = k.R1 → v = b.v) ∧ (b.v = k.R1 → v = a.v)

/-- R114: SQR, and its agreement with MUL of a register by itself. -/
def Obligations.SqrIsMontgomerySquaring : Prop :=
  ∀ (s : State) (vd va : Index), s.Inv →
    decode (pack 0x13 vd va 0) = .ok (.sqr vd va) ∧ unaryErrors (.sqr vd va) s [vd, va] va ∧
    exec (.sqr vd va) s = exec (.mul vd va va) s ∧
    ∀ a k, inRange s [vd, va] → s.valueAt va.toNat = some a → s.contextAt a.ctx = some k →
      ∃ v, exec (.sqr vd va) s = .next (wrote s vd a.ctx v) ∧ v = k.redc s.cfg.W (a.v * a.v) ∧ v < k.p ∧
        v = a.v * a.v * invMod k.R1 k.p % k.p ∧ logical k v = logical k a.v * logical k a.v % k.p ∧
          (a.v = k.R1 → v = k.R1) ∧ (a.v + k.R1 = k.p → v = k.R1)

/-- R125: INV. -/
def Obligations.InvIsMultiplicativeInverse : Prop :=
  ∀ (s : State) (vd va : Index), s.Inv →
    decode (pack 0x14 vd va 0) = .ok (.inv vd va) ∧ unaryErrors (.inv vd va) s [vd, va] va ∧
    ∀ a k, inRange s [vd, va] → s.valueAt va.toNat = some a → s.contextAt a.ctx = some k →
      k.redc s.cfg.W a.v = logical k a.v ∧ Nat.gcd (logical k a.v) k.p = Nat.gcd a.v k.p ∧
      (Nat.gcd (logical k a.v) k.p ≠ 1 → failsWith (.inv vd va) s .notInvertible) ∧
      (a.v = 0 → failsWith (.inv vd va) s .notInvertible) ∧
      (Nat.gcd (logical k a.v) k.p = 1 →
        ∃ v, exec (.inv vd va) s = .next (wrote s vd a.ctx v) ∧
          v = k.redc s.cfg.W (invMod (logical k a.v) k.p * k.R2) ∧ v < k.p ∧
            logical k v = invMod (logical k a.v) k.p ∧ logical k a.v * logical k v % k.p = 1 ∧
              k.redc s.cfg.W (a.v * v) = k.R1 ∧
                k.redc s.cfg.W (invMod (logical k v) k.p * k.R2) = a.v)

/-- R151: MUL2, and its agreement with ADD of a register to itself. -/
def Obligations.MulByTwo : Prop :=
  ∀ (s : State) (vd va : Index), s.Inv →
    decode (pack 0x18 vd va 0) = .ok (.mul2 vd va) ∧ unaryErrors (.mul2 vd va) s [vd, va] va ∧
    exec (.mul2 vd va) s = exec (.add vd va va) s ∧
    ∀ a k, inRange s [vd, va] → s.valueAt va.toNat = some a → s.contextAt a.ctx = some k →
      exec (.mul2 vd va) s = .next (wrote s vd a.ctx (2 * a.v % k.p)) ∧ 2 * a.v ≠ k.p ∧
        2 * a.v % k.p = (if k.p < 2 * a.v then 2 * a.v - k.p else 2 * a.v) ∧
          logical k (2 * a.v % k.p) = 2 * logical k a.v % k.p

/-- R152: MUL3, with R152 (d)'s count of subtractions. -/
def Obligations.MulByThree : Prop :=
  ∀ (s : State) (vd va : Index), s.Inv →
    decode (pack 0x19 vd va 0) = .ok (.mul3 vd va) ∧ unaryErrors (.mul3 vd va) s [vd, va] va ∧
    ∀ a k, inRange s [vd, va] → s.valueAt va.toNat = some a → s.contextAt a.ctx = some k →
      exec (.mul3 vd va) s = .next (wrote s vd a.ctx (3 * a.v % k.p)) ∧
        3 * a.v % k.p = (if 3 * a.v < k.p then 3 * a.v else if 3 * a.v < 2 * k.p then 3 * a.v - k.p
          else 3 * a.v - 2 * k.p) ∧
          logical k (3 * a.v % k.p) = 3 * logical k a.v % k.p

/-- R153: MUL4, and its agreement with MUL2 applied twice. -/
def Obligations.MulByFour : Prop :=
  ∀ (s : State) (vd va : Index), s.Inv →
    decode (pack 0x1A vd va 0) = .ok (.mul4 vd va) ∧ unaryErrors (.mul4 vd va) s [vd, va] va ∧
    ∀ a k, inRange s [vd, va] → s.valueAt va.toNat = some a → s.contextAt a.ctx = some k →
      exec (.mul4 vd va) s = .next (wrote s vd a.ctx (4 * a.v % k.p)) ∧
        logical k (4 * a.v % k.p) = 4 * logical k a.v % k.p ∧
          ∃ t, exec (.mul2 vd va) s = .next t ∧ exec (.mul2 vd vd) t = exec (.mul4 vd va) s

/-- R154: MUL8, and its agreement with MUL4 then MUL2. -/
def Obligations.MulByEight : Prop :=
  ∀ (s : State) (vd va : Index), s.Inv →
    decode (pack 0x1B vd va 0) = .ok (.mul8 vd va) ∧ unaryErrors (.mul8 vd va) s [vd, va] va ∧
    ∀ a k, inRange s [vd, va] → s.valueAt va.toNat = some a → s.contextAt a.ctx = some k →
      exec (.mul8 vd va) s = .next (wrote s vd a.ctx (8 * a.v % k.p)) ∧
        logical k (8 * a.v % k.p) = 8 * logical k a.v % k.p ∧
          ∃ t, exec (.mul4 vd va) s = .next t ∧ exec (.mul2 vd vd) t = exec (.mul8 vd va) s

/-- R160: VALUE. DLEN is `p_words` whenever 32 bits hold it; what DLEN holds otherwise is not stated by the spec
(notes/assumptions/9.md). -/
def Obligations.ValueExitsTheDomain : Prop :=
  ∀ (s : State) (va : Index), s.Inv →
    decode (pack 0x20 0 va 0) = .ok (.value va) ∧ unaryErrors (.value va) s [va] va ∧
    ∀ a k, inRange s [va] → s.valueAt va.toNat = some a → s.contextAt a.ctx = some k →
      ∃ dout dlen, exec (.value va) s = .next { s with dout := dout, dlen := dlen, err := 0 } ∧
        dout.length = s.cfg.nMax ∧ intOf s.cfg.W dout = logical k a.v ∧ logical k a.v = k.redc s.cfg.W a.v ∧
          (∀ i, i < s.cfg.nMax → dout[i]? = some (wordOf s.cfg.W (logical k a.v) i)) ∧
            (∀ i, k.pWords ≤ i → i < s.cfg.nMax → dout[i]? = some 0) ∧
              (k.pWords < 2 ^ 32 → dlen.toNat = k.pWords)

/-- R161: SER. `L` bytes, big-endian, the rest of BOUT zero; decoding them gives the logical value back. BLEN is `L`
whenever 32 bits hold it; what BLEN holds otherwise is not stated by the spec (notes/assumptions/9.md). -/
def Obligations.SerializesBigEndian : Prop :=
  ∀ (s : State) (va : Index), s.Inv →
    decode (pack 0x21 0 va 0) = .ok (.ser va) ∧ unaryErrors (.ser va) s [va] va ∧
    ∀ a k, inRange s [va] → s.valueAt va.toNat = some a → s.contextAt a.ctx = some k →
      ∃ L bout blen, L = (bitlen k.p + 7) / 8 ∧ 1 ≤ L ∧ L ≤ s.cfg.bytesMax ∧
        exec (.ser va) s = .next { s with bout := bout, blen := blen, err := 0 } ∧
        bout.length = s.cfg.bytesMax ∧
          (∀ j, j < L → ∃ b, bout[j]? = some b ∧ b.toNat = logical k a.v / 2 ^ (8 * (L - 1 - j)) % 256) ∧
            (∀ j, L ≤ j → j < s.cfg.bytesMax → bout[j]? = some 0) ∧
              (bout.take L).foldl (fun n b => n * 256 + b.toNat) 0 = logical k a.v ∧
                (L < 2 ^ 32 → blen.toNat = L)

/-- R162: ISZERO. -/
def Obligations.IsZeroTestsTheRepresentation : Prop :=
  ∀ (s : State) (va : Index), s.Inv →
    decode (pack 0x28 0 va 0) = .ok (.iszero va) ∧ unaryErrors (.iszero va) s [va] va ∧
    ∀ a k, inRange s [va] → s.valueAt va.toNat = some a → s.contextAt a.ctx = some k →
      ∃ b, exec (.iszero va) s = .next { s with t := b, err := 0 } ∧ (b = true ↔ a.v = 0) ∧
        (b = true ↔ logical k a.v = 0)

/-- R163: ISONE. -/
def Obligations.IsOneTestsForR1 : Prop :=
  ∀ (s : State) (va : Index), s.Inv →
    decode (pack 0x29 0 va 0) = .ok (.isone va) ∧ unaryErrors (.isone va) s [va] va ∧
    ∀ a k, inRange s [va] → s.valueAt va.toNat = some a → s.contextAt a.ctx = some k →
      ∃ b, exec (.isone va) s = .next { s with t := b, err := 0 } ∧ (b = true ↔ a.v = k.R1) ∧
        (b = true ↔ logical k a.v = 1)

/-- R164: EQ. -/
def Obligations.EqComparesRepresentations : Prop :=
  ∀ (s : State) (va vb : Index), s.Inv →
    decode (pack 0x2A 0 va vb) = .ok (.eq va vb) ∧ binaryErrors (.eq va vb) s [va, vb] va vb ∧
    ∀ a b k, inRange s [va, vb] → s.valueAt va.toNat = some a → s.valueAt vb.toNat = some b →
      a.ctx = b.ctx → s.contextAt a.ctx = some k →
        ∃ r, exec (.eq va vb) s = .next { s with t := r, err := 0 } ∧ (r = true ↔ a.v = b.v) ∧
          (r = true ↔ logical k a.v = logical k b.v)

/-- R165: NE, and that it gives the complement of EQ in the same state. -/
def Obligations.NeIsTheComplementOfEq : Prop :=
  ∀ (s : State) (va vb : Index), s.Inv →
    decode (pack 0x2B 0 va vb) = .ok (.ne va vb) ∧ binaryErrors (.ne va vb) s [va, vb] va vb ∧
    ∀ a b k, inRange s [va, vb] → s.valueAt va.toNat = some a → s.valueAt vb.toNat = some b →
      a.ctx = b.ctx → s.contextAt a.ctx = some k →
        ∃ r, exec (.ne va vb) s = .next { s with t := r, err := 0 } ∧ (r = true ↔ a.v ≠ b.v) ∧
          exec (.eq va vb) s = .next { s with t := !r, err := 0 } ∧
            (r = true ↔ logical k a.v ≠ logical k b.v)

/-! ## Laws of the source (95_test_vectors.md, 1.1), over any state that meets the invariant -/

/-- Domain entry then exit gives the integer back, reduced modulo `p` (laws 2 and 7's value). -/
def Obligations.EnterThenValueReturnsTheInteger : Prop :=
  ∀ (s : State) (vd ctx : Index) (k : Context), s.Inv → vd.toNat < s.cfg.nV → ctx.toNat < s.cfg.nP →
    s.contextAt ctx.toNat = some k → s.dinInt < k.R s.cfg.W →
      ∃ t u, exec (.vnew vd ctx true) s = .next t ∧ exec (.value vd) t = .next u ∧
        intOf s.cfg.W u.dout = s.dinInt % k.p ∧ u.err = 0 ∧ u.errlog = s.errlog

/-- A value times its inverse is one: INV into another register, MUL, ISONE leaves T = 1 (law 3). -/
def Obligations.ValueTimesInverseIsOne : Prop :=
  ∀ (s : State) (va vi vd : Index) (a : Value) (k : Context), s.Inv → inRange s [va, vi, vd] → va ≠ vi →
    s.valueAt va.toNat = some a → s.contextAt a.ctx = some k → Nat.gcd a.v k.p = 1 →
      ∃ t u w, exec (.inv vi va) s = .next t ∧ exec (.mul vd va vi) t = .next u ∧
        exec (.isone vd) u = .next w ∧ w.t = true ∧ w.err = 0

/-! ## The arguments of redc -/

/-- R112's call sites: when VNEW with domain entry, MUL, SQR, INV, VALUE or SER succeeds in a state that meets the
invariant, each argument R112 lists for it is below R*p, and the command's result is `redc` of that argument (for INV,
of the second, which is made from `redc` of the first). -/
def Obligations.RedcArgumentsOfCommandsAreInDomain : Prop :=
  ∀ s t : State, s.Inv → t.err = 0 →
    (∀ (vd ctx : Index) (k : Context), s.contextAt ctx.toNat = some k → exec (.vnew vd ctx true) s = .next t →
      s.dinInt * k.R2 < k.R s.cfg.W * k.p ∧
        t.valueAt vd.toNat = some { ctx := ctx.toNat, v := k.redc s.cfg.W (s.dinInt * k.R2) }) ∧
    (∀ (vd va vb : Index) (a b : Value) (k : Context), s.valueAt va.toNat = some a → s.valueAt vb.toNat = some b →
      s.contextAt a.ctx = some k → exec (.mul vd va vb) s = .next t →
        a.v * b.v < k.R s.cfg.W * k.p ∧
          t.valueAt vd.toNat = some { ctx := a.ctx, v := k.redc s.cfg.W (a.v * b.v) }) ∧
    ∀ (vd va : Index) (a : Value) (k : Context), s.valueAt va.toNat = some a → s.contextAt a.ctx = some k →
      (exec (.sqr vd va) s = .next t →
        a.v * a.v < k.R s.cfg.W * k.p ∧
          t.valueAt vd.toNat = some { ctx := a.ctx, v := k.redc s.cfg.W (a.v * a.v) }) ∧
      (exec (.inv vd va) s = .next t →
        a.v < k.R s.cfg.W * k.p ∧ invMod (k.redc s.cfg.W a.v) k.p * k.R2 < k.R s.cfg.W * k.p ∧
          t.valueAt vd.toNat =
            some { ctx := a.ctx, v := k.redc s.cfg.W (invMod (k.redc s.cfg.W a.v) k.p * k.R2) }) ∧
      (exec (.value va) s = .next t →
        a.v < k.R s.cfg.W * k.p ∧ intOf s.cfg.W t.dout = k.redc s.cfg.W a.v) ∧
      (exec (.ser va) s = .next t →
        a.v < k.R s.cfg.W * k.p ∧
          (t.bout.take ((bitlen k.p + 7) / 8)).foldl (fun n b => n * 256 + b.toNat) 0 = k.redc s.cfg.W a.v)
end

