-- ==== Sys2Proof/Laws/Arith.lean ====
section
/-! SUPPORT. One spec lemma per function of the block's arithmetic. -/

namespace Sys2Proof.Machine

/-- `bitlen` counts the bits a number needs. -/
theorem bitlen_le_iff {x k : Nat} : bitlen x ≤ k ↔ x < 2 ^ k := by
  unfold bitlen
  split
  · simp [*]
  · rename_i h
    rw [Nat.add_one_le_iff, Nat.log2_lt h]

theorem lt_two_pow_bitlen (x : Nat) : x < 2 ^ bitlen x := bitlen_le_iff.1 le_rfl

theorem ceilDiv_mul_ge {a b : Nat} (hb : 1 ≤ b) : a ≤ ceilDiv a b * b := by
  have h := Nat.div_add_mod (a + b - 1) b
  have h' := Nat.mod_lt (a + b - 1) hb
  unfold ceilDiv
  rw [Nat.mul_comm]
  omega

theorem ceilDiv_le_iff {a b c : Nat} (hb : 1 ≤ b) : ceilDiv a b ≤ c ↔ a ≤ c * b := by
  constructor
  · intro h
    exact (ceilDiv_mul_ge hb).trans (Nat.mul_le_mul_right b h)
  · intro h
    unfold ceilDiv
    rw [← Nat.lt_succ_iff, Nat.div_lt_iff_lt_mul hb, Nat.succ_mul]
    omega

/-- `R` exceeds the modulus (R101). -/
theorem lt_rOf {W p : Nat} (hW : 1 ≤ W) : p < 2 ^ (pwords W p * W) :=
  bitlen_le_iff.1 (ceilDiv_mul_ge hW)

/-- The modulus needs no more than `N` words exactly when it is below `2^(N*W)`. -/
theorem pwords_le_iff {W p N : Nat} (hW : 1 ≤ W) : pwords W p ≤ N ↔ p < 2 ^ (N * W) := by
  unfold pwords
  rw [ceilDiv_le_iff hW, bitlen_le_iff]

theorem pwords_pos {W p : Nat} (hp : 0 < p) (hW : 1 ≤ W) : 1 ≤ pwords W p := by
  by_contra h
  have h0 : pwords W p ≤ 0 := by omega
  rw [pwords_le_iff hW] at h0
  simp at h0
  omega

@[simp] theorem wordsOf_length (W n x : Nat) : (wordsOf W n x).length = n := by simp [wordsOf]

theorem wordOf_lt (W x i : Nat) : wordOf W x i < 2 ^ W := Nat.mod_lt _ (Nat.two_pow_pos W)

theorem wordsOf_lt {W n x w : Nat} (h : w ∈ wordsOf W n x) : w < 2 ^ W := by
  obtain ⟨i, -, rfl⟩ := List.mem_map.1 h
  exact wordOf_lt W x i

/-- The words of a number from word 1 on are the words of the number shifted down by one. -/
theorem wordOf_succ (W x i : Nat) : wordOf W x (i + 1) = wordOf W (x / 2 ^ W) i := by
  simp only [wordOf, Nat.mul_add, Nat.mul_one, Nat.pow_add, Nat.div_div_eq_div_mul,
    Nat.mul_comm (2 ^ (W * i))]

/-- The integer of a number's words is the number, modulo what the words can hold (R11, R52). -/
theorem intOf_wordsOf (W n x : Nat) : intOf W (wordsOf W n x) = x % 2 ^ (n * W) := by
  induction n generalizing x with
  | zero => simp [wordsOf, intOf, Nat.mod_one]
  | succ n ih =>
    have h : wordsOf W (n + 1) x = x % 2 ^ W :: wordsOf W n (x / 2 ^ W) := by
      simp only [wordsOf, List.range_succ_eq_map, List.map_cons, List.map_map]
      congr 1
      · simp [wordOf]
      · exact List.map_congr_left fun i _ => wordOf_succ W x i
    rw [h, intOf, ih, Nat.add_mul, Nat.one_mul, Nat.add_comm (n * W), Nat.pow_add, Nat.mod_mul]

/-- The integer of `n` words is below `2^(n*W)`. -/
theorem intOf_lt {W : Nat} {l : List Nat} (h : ∀ w ∈ l, w < 2 ^ W) : intOf W l < 2 ^ (l.length * W) := by
  induction l with
  | nil => simp [intOf]
  | cons w ws ih =>
    have hw := h w (by simp)
    have hs := ih fun v hv => h v (by simp [hv])
    rw [intOf, List.length_cons, Nat.add_mul, Nat.one_mul, Nat.pow_add]
    calc w + 2 ^ W * intOf W ws < 2 ^ W * (intOf W ws + 1) := by rw [Nat.mul_add]; omega
      _ ≤ 2 ^ W * 2 ^ (ws.length * W) := Nat.mul_le_mul_left _ hs
      _ = 2 ^ (ws.length * W) * 2 ^ W := Nat.mul_comm _ _

@[simp] theorem bigEndian_length (x L : Nat) : (bigEndian x L).length = L := by simp [bigEndian]

/-- Euclid's passes keep each remainder the multiple of `x` its cofactor says, and end in the gcd. -/
theorem euclid_spec {m x : Nat} :
    ∀ fuel r0 t0 r1 t1 : Nat, r1 ≤ fuel → t0 < m → t1 < m →
      r0 ≡ t0 * x [MOD m] → r1 ≡ t1 * x [MOD m] →
        euclid m fuel r0 t0 r1 t1 < m ∧ Nat.gcd r0 r1 ≡ euclid m fuel r0 t0 r1 t1 * x [MOD m]
  | 0, r0, t0, r1, t1, hf, h0, _, c0, _ => by
    have : r1 = 0 := by omega
    subst this
    exact ⟨h0, by simpa [euclid] using c0⟩
  | fuel + 1, r0, t0, r1, t1, hf, h0, h1, c0, c1 => by
    rw [euclid]
    split
    · rename_i h
      subst h
      exact ⟨h0, by simpa using c0⟩
    · rename_i hr
      have hm : 0 < m := by omega
      have hdec := Nat.mod_lt r0 (Nat.pos_of_ne_zero hr)
      have hlt := Nat.mod_lt (r0 / r1 * t1) hm
      have hq : (t0 + (m - r0 / r1 * t1 % m)) % m + r0 / r1 * t1 ≡ t0 [MOD m] := by
        have e1 : (t0 + (m - r0 / r1 * t1 % m)) % m + r0 / r1 * t1
            ≡ t0 + (m - r0 / r1 * t1 % m) + r0 / r1 * t1 % m [MOD m] :=
          Nat.ModEq.add (Nat.mod_modEq _ _) (Nat.mod_modEq _ _).symm
        have e2 : t0 + (m - r0 / r1 * t1 % m) + r0 / r1 * t1 % m = t0 + m := by omega
        rw [e2] at e1
        exact e1.trans (by simp [Nat.ModEq])
      have key : r0 % r1 ≡ (t0 + (m - r0 / r1 * t1 % m)) % m * x [MOD m] := by
        have e3 : r0 % r1 + r0 / r1 * r1 ≡
            (t0 + (m - r0 / r1 * t1 % m)) % m * x + r0 / r1 * r1 [MOD m] := by
          calc r0 % r1 + r0 / r1 * r1 = r0 := by rw [Nat.mul_comm]; exact Nat.mod_add_div r0 r1
            _ ≡ t0 * x [MOD m] := c0
            _ ≡ ((t0 + (m - r0 / r1 * t1 % m)) % m + r0 / r1 * t1) * x [MOD m] := (hq.mul_right x).symm
            _ = (t0 + (m - r0 / r1 * t1 % m)) % m * x + r0 / r1 * (t1 * x) := by ring
            _ ≡ (t0 + (m - r0 / r1 * t1 % m)) % m * x + r0 / r1 * r1 [MOD m] :=
                (c1.symm.mul_left _).add_left _
        exact e3.add_right_cancel' _
      have ih := euclid_spec fuel r1 t1 (r0 % r1) ((t0 + (m - r0 / r1 * t1 % m)) % m)
        (by omega) h1 (Nat.mod_lt _ hm) c1 key
      refine ⟨ih.1, ?_⟩
      have hg : Nat.gcd r0 r1 = Nat.gcd r1 (r0 % r1) := by
        rw [Nat.gcd_comm r0 r1, Nat.gcd_rec r1 r0, Nat.gcd_comm]
      rw [hg]
      exact ih.2

/-- `inv_mod` is below the modulus, and its product with `x` is the gcd modulo `m`. -/
theorem invMod_spec {x m : Nat} (hm : 1 < m) :
    invMod x m < m ∧ Nat.gcd m x ≡ invMod x m * x [MOD m] := by
  have h := euclid_spec (m := m) (x := x) m m 0 (x % m) 1 (Nat.mod_lt x (by omega)).le (by omega) hm
    (by simp [Nat.ModEq]) (by simpa using Nat.mod_modEq x m)
  refine ⟨h.1, ?_⟩
  have hg : Nat.gcd m (x % m) = Nat.gcd m x := by
    rw [Nat.gcd_comm m (x % m), ← Nat.gcd_rec m x]
  rw [← hg]
  exact h.2

/-- `inv_mod` inverts what can be inverted. -/
theorem mul_invMod {x m : Nat} (hm : 1 < m) (h : Nat.gcd x m = 1) : x * invMod x m % m = 1 := by
  have hs := (invMod_spec (x := x) hm).2
  rw [Nat.gcd_comm, h, Nat.mul_comm] at hs
  rw [← hs, Nat.mod_eq_of_lt hm]

/-- Multiplication by a unit can be cancelled modulo `m`. -/
theorem eq_of_mul_mod_eq {x m y z : Nat} (h : Nat.gcd x m = 1) (hy : y < m) (hz : z < m)
    (e : x * y % m = x * z % m) : y = z := by
  have hc : x * y ≡ x * z [MOD m] := e
  have := Nat.ModEq.cancel_left_of_coprime (by rwa [Nat.gcd_comm]) hc
  exact Nat.ModEq.eq_of_lt_of_lt this hy hz

theorem odd_gcd_two_pow {p : Nat} (h : p % 2 = 1) (n : Nat) : Nat.gcd p (2 ^ n) = 1 :=
  Nat.Coprime.pow_right n (Nat.coprime_two_right.2 (Nat.odd_iff.2 h))

/-- `p_dash` is a word, and clears the low word of REDC's accumulator (R102). -/
theorem pdash_spec {W p : Nat} (hW : 1 ≤ W) (hp : p % 2 = 1) :
    pdash W p < 2 ^ W ∧ (p % 2 ^ W * pdash W p + 1) % 2 ^ W = 0 := by
  have hpos := Nat.two_pow_pos W
  have h2 : 1 < 2 ^ W := Nat.one_lt_two_pow (by omega)
  refine ⟨Nat.mod_lt _ hpos, ?_⟩
  have hg : Nat.gcd (p % 2 ^ W) (2 ^ W) = 1 := by
    rw [← Nat.gcd_rec, Nat.gcd_comm]; exact odd_gcd_two_pow hp W
  have hi := (invMod_spec (x := p % 2 ^ W) h2).1
  have hm := mul_invMod h2 hg
  have e : p % 2 ^ W * pdash W p + 1 ≡
      p % 2 ^ W * (2 ^ W - invMod (p % 2 ^ W) (2 ^ W)) + p % 2 ^ W * invMod (p % 2 ^ W) (2 ^ W) [MOD 2 ^ W] := by
    refine Nat.ModEq.add ((Nat.mod_modEq _ _).mul_left _) ?_
    unfold Nat.ModEq
    rw [hm, Nat.mod_eq_of_lt h2]
  rw [← Nat.mul_add, Nat.sub_add_cancel hi.le] at e
  rw [e, Nat.mul_mod_left]

theorem mul_mod_add_one {B P d : Nat} (hB : 0 < B) : (P * d + 1) % B = 0 ↔ P * d % B = B - 1 := by
  have h := Nat.mod_lt (P * d) hB
  have e : (P * d + 1) % B = (P * d % B + 1) % B := by simp
  rw [e]
  constructor
  · intro h0
    by_contra hne
    rw [Nat.mod_eq_of_lt (by omega)] at h0
    omega
  · intro h0
    rw [h0, Nat.sub_add_cancel hB, Nat.mod_self]

/-- One pass of REDC shifts out a word of zeros: it adds the multiple of `p` that clears it (R110). -/
theorem redcPass_mul {W p d : Nat} (h : p % 2 ^ W * d % 2 ^ W = 2 ^ W - 1) (a : Nat) :
    redcPass W p d a * 2 ^ W = a + a % 2 ^ W * d % 2 ^ W * p := by
  refine Nat.div_mul_cancel (Nat.dvd_of_mod_eq_zero ?_)
  have hpos := Nat.two_pow_pos W
  have e : a + a % 2 ^ W * d % 2 ^ W * p ≡ a * (p % 2 ^ W * d + 1) [MOD 2 ^ W] := by
    calc a + a % 2 ^ W * d % 2 ^ W * p ≡ a + a * d * p [MOD 2 ^ W] :=
          ((((Nat.mod_modEq _ _).trans ((Nat.mod_modEq a _).mul_right d))).mul_right p).add_left a
      _ ≡ a + a * d * (p % 2 ^ W) [MOD 2 ^ W] := (((Nat.mod_modEq p _).symm).mul_left _).add_left a
      _ = a * (p % 2 ^ W * d + 1) := by ring
  have h0 := (mul_mod_add_one hpos).2 h
  rw [e, Nat.mul_mod, h0, Nat.mul_zero, Nat.zero_mod]

/-- After `n` passes the accumulator, scaled back, is `x` plus a multiple of `p` below `2^(n*W) * p` (R111). -/
theorem redcLoop_mul {W p d : Nat} (h : p % 2 ^ W * d % 2 ^ W = 2 ^ W - 1) (n a : Nat) :
    ∃ M < 2 ^ (n * W), redcLoop W p d n a * 2 ^ (n * W) = a + M * p := by
  induction n generalizing a with
  | zero => exact ⟨0, by simp, by simp [redcLoop]⟩
  | succ n ih =>
    obtain ⟨M, hM, e⟩ := ih (redcPass W p d a)
    have hm : a % 2 ^ W * d % 2 ^ W < 2 ^ W := Nat.mod_lt _ (Nat.two_pow_pos W)
    refine ⟨a % 2 ^ W * d % 2 ^ W + M * 2 ^ W, ?_, ?_⟩
    · have hs : (M + 1) * 2 ^ W ≤ 2 ^ (n * W) * 2 ^ W := Nat.mul_le_mul_right _ hM
      rw [Nat.add_mul, Nat.one_mul] at hs
      rw [Nat.add_mul, Nat.one_mul, Nat.pow_add]
      omega
    · rw [redcLoop, Nat.add_mul, Nat.one_mul, Nat.pow_add, ← Nat.mul_assoc, e, Nat.add_mul,
        redcPass_mul h]
      ring

@[simp] theorem subtractOnce_lt {p a : Nat} (h : a < 2 * p) : subtractOnce p a < p := by
  unfold subtractOnce; split <;> omega

theorem subtractOnce_modEq {p a : Nat} : subtractOnce p a ≡ a [MOD p] := by
  unfold subtractOnce
  split
  · rename_i h
    exact (Nat.modEq_iff_dvd' (Nat.sub_le a p)).2 (by rw [Nat.sub_sub_self h])
  · rfl

end Sys2Proof.Machine
end

