-- ==== Sys2Proof/Laws/Decode.lean ====
section
/-! SUPPORT. The fields of a packed word, and packing as a product of its fields. -/

namespace Sys2Proof

variable (op rd ra rb op' rd' ra' rb' : Byte)

@[simp] theorem fieldOp_pack : fieldOp (pack op rd ra rb) = op := by
  apply BitVec.eq_of_getLsbD_eq; intro i hi
  simp only [fieldOp, pack, BitVec.getLsbD_extractLsb', BitVec.getLsbD_append]
  simp [hi, show ¬ 24 + i < 8 by omega, show ¬ 24 + i - 8 < 8 by omega, show ¬ 24 + i - 8 - 8 < 8 by omega,
    show 24 + i - 8 - 8 - 8 = i by omega]

@[simp] theorem fieldRd_pack : fieldRd (pack op rd ra rb) = rd := by
  apply BitVec.eq_of_getLsbD_eq; intro i hi
  simp only [fieldRd, pack, BitVec.getLsbD_extractLsb', BitVec.getLsbD_append]
  simp [hi, show ¬ 16 + i < 8 by omega, show ¬ 16 + i - 8 < 8 by omega,
    show 16 + i - 8 - 8 = i by omega]

@[simp] theorem fieldRa_pack : fieldRa (pack op rd ra rb) = ra := by
  apply BitVec.eq_of_getLsbD_eq; intro i hi
  simp only [fieldRa, pack, BitVec.getLsbD_extractLsb', BitVec.getLsbD_append]
  simp [hi, show ¬ 8 + i < 8 by omega, show 8 + i - 8 = i by omega]

@[simp] theorem fieldRb_pack : fieldRb (pack op rd ra rb) = rb := by
  apply BitVec.eq_of_getLsbD_eq; intro i hi
  simp only [fieldRb, pack, BitVec.getLsbD_extractLsb', BitVec.getLsbD_append]
  simp [hi]

/-- A word is its four fields. -/
theorem pack_fields (c : Word32) : pack (fieldOp c) (fieldRd c) (fieldRa c) (fieldRb c) = c := by
  apply BitVec.eq_of_getLsbD_eq; intro i hi
  simp only [fieldOp, fieldRd, fieldRa, fieldRb, pack, BitVec.getLsbD_extractLsb', BitVec.getLsbD_append]
  by_cases h1 : i < 8
  · simp [h1]
  by_cases h2 : i < 16
  · simp [h1, show i - 8 < 8 by omega, show 8 + (i - 8) = i by omega]
  by_cases h3 : i < 24
  · simp [h1, show ¬ i - 8 < 8 by omega, show i - 8 - 8 < 8 by omega, show 16 + (i - 8 - 8) = i by omega]
  · simp [h1, show ¬ i - 8 < 8 by omega, show ¬ i - 8 - 8 < 8 by omega, show i - 8 - 8 - 8 < 8 by omega,
      show 24 + (i - 8 - 8 - 8) = i by omega]

/-- Every word is packed from some fields. -/
theorem exists_pack (c : Word32) : ∃ op rd ra rb, c = pack op rd ra rb :=
  ⟨_, _, _, _, (pack_fields c).symm⟩

/-- Equal words have equal fields. -/
theorem pack_inj : pack op rd ra rb = pack op' rd' ra' rb' ↔ op = op' ∧ rd = rd' ∧ ra = ra' ∧ rb = rb' := by
  constructor
  · intro h
    exact ⟨by simpa using congrArg fieldOp h, by simpa using congrArg fieldRd h,
      by simpa using congrArg fieldRa h, by simpa using congrArg fieldRb h⟩
  · rintro ⟨rfl, rfl, rfl, rfl⟩; rfl

/-- A mask applies field by field. -/
theorem pack_and :
    pack op rd ra rb &&& pack op' rd' ra' rb' = pack (op &&& op') (rd &&& rd') (ra &&& ra') (rb &&& rb') := by
  apply BitVec.eq_of_getLsbD_eq; intro i hi
  simp only [pack, BitVec.getLsbD_and, BitVec.getLsbD_append]
  split <;> [rfl; split <;> [rfl; split <;> rfl]]

/-- The word of a packed command as the number R80 gives. -/
theorem pack_toNat : (pack op rd ra rb).toNat =
    op.toNat * 2 ^ 24 + rd.toNat * 2 ^ 16 + ra.toNat * 2 ^ 8 + rb.toNat := by
  have h2 := rb.isLt; have h1 := ra.isLt; have h0 := rd.isLt
  simp only [pack, BitVec.toNat_append]
  rw [← Nat.shiftLeft_add_eq_or_of_lt (by omega), ← Nat.shiftLeft_add_eq_or_of_lt (by omega),
    ← Nat.shiftLeft_add_eq_or_of_lt (by omega)]
  simp only [Nat.shiftLeft_eq]
  omega

end Sys2Proof
end

