-- ==== Sys2Proof/Laws/State.lean ====
section
/-! SUPPORT. One lemma per field per update of the state, so that no proof unfolds a record update. -/

namespace Sys2Proof.Machine

variable (s : State)

section fail
variable (e : ErrorCode)
@[simp] theorem State.fail_cfg : (s.fail e).cfg = s.cfg := rfl
@[simp] theorem State.fail_contexts : (s.fail e).contexts = s.contexts := rfl
@[simp] theorem State.fail_values : (s.fail e).values = s.values := rfl
@[simp] theorem State.fail_t : (s.fail e).t = s.t := rfl
@[simp] theorem State.fail_err : (s.fail e).err = BitVec.ofNat 8 e.code := rfl
@[simp] theorem State.fail_errlog : (s.fail e).errlog = s.errlog ||| e.bit := rfl
@[simp] theorem State.fail_din : (s.fail e).din = s.din := rfl
@[simp] theorem State.fail_dout : (s.fail e).dout = s.dout := rfl
@[simp] theorem State.fail_dlen : (s.fail e).dlen = s.dlen := rfl
@[simp] theorem State.fail_bout : (s.fail e).bout = s.bout := rfl
@[simp] theorem State.fail_blen : (s.fail e).blen = s.blen := rfl
@[simp] theorem State.fail_pending : (s.fail e).pending = s.pending := rfl
@[simp] theorem State.fail_replies : (s.fail e).replies = s.replies := rfl
end fail

section succeed
@[simp] theorem State.succeed_cfg : (s.succeed).cfg = s.cfg := rfl
@[simp] theorem State.succeed_contexts : (s.succeed).contexts = s.contexts := rfl
@[simp] theorem State.succeed_values : (s.succeed).values = s.values := rfl
@[simp] theorem State.succeed_t : (s.succeed).t = s.t := rfl
@[simp] theorem State.succeed_err : (s.succeed).err = 0 := rfl
@[simp] theorem State.succeed_errlog : (s.succeed).errlog = s.errlog := rfl
@[simp] theorem State.succeed_din : (s.succeed).din = s.din := rfl
@[simp] theorem State.succeed_dout : (s.succeed).dout = s.dout := rfl
@[simp] theorem State.succeed_dlen : (s.succeed).dlen = s.dlen := rfl
@[simp] theorem State.succeed_bout : (s.succeed).bout = s.bout := rfl
@[simp] theorem State.succeed_blen : (s.succeed).blen = s.blen := rfl
@[simp] theorem State.succeed_pending : (s.succeed).pending = s.pending := rfl
@[simp] theorem State.succeed_replies : (s.succeed).replies = s.replies := rfl
end succeed

section setValue
variable (i : Nat) (o : Option Value)
@[simp] theorem State.setValue_cfg : (s.setValue i o).cfg = s.cfg := rfl
@[simp] theorem State.setValue_contexts : (s.setValue i o).contexts = s.contexts := rfl
@[simp] theorem State.setValue_values : (s.setValue i o).values = s.values.set i o := rfl
@[simp] theorem State.setValue_t : (s.setValue i o).t = s.t := rfl
@[simp] theorem State.setValue_err : (s.setValue i o).err = s.err := rfl
@[simp] theorem State.setValue_errlog : (s.setValue i o).errlog = s.errlog := rfl
@[simp] theorem State.setValue_din : (s.setValue i o).din = s.din := rfl
@[simp] theorem State.setValue_dout : (s.setValue i o).dout = s.dout := rfl
@[simp] theorem State.setValue_dlen : (s.setValue i o).dlen = s.dlen := rfl
@[simp] theorem State.setValue_bout : (s.setValue i o).bout = s.bout := rfl
@[simp] theorem State.setValue_blen : (s.setValue i o).blen = s.blen := rfl
@[simp] theorem State.setValue_pending : (s.setValue i o).pending = s.pending := rfl
@[simp] theorem State.setValue_replies : (s.setValue i o).replies = s.replies := rfl
end setValue

section setContext
variable (c : Nat) (k : Context)
@[simp] theorem State.setContext_cfg : (s.setContext c k).cfg = s.cfg := rfl
@[simp] theorem State.setContext_contexts : (s.setContext c k).contexts = s.contexts.set c (some k) := rfl
@[simp] theorem State.setContext_values : (s.setContext c k).values = s.values := rfl
@[simp] theorem State.setContext_t : (s.setContext c k).t = s.t := rfl
@[simp] theorem State.setContext_err : (s.setContext c k).err = s.err := rfl
@[simp] theorem State.setContext_errlog : (s.setContext c k).errlog = s.errlog := rfl
@[simp] theorem State.setContext_din : (s.setContext c k).din = s.din := rfl
@[simp] theorem State.setContext_dout : (s.setContext c k).dout = s.dout := rfl
@[simp] theorem State.setContext_dlen : (s.setContext c k).dlen = s.dlen := rfl
@[simp] theorem State.setContext_bout : (s.setContext c k).bout = s.bout := rfl
@[simp] theorem State.setContext_blen : (s.setContext c k).blen = s.blen := rfl
@[simp] theorem State.setContext_pending : (s.setContext c k).pending = s.pending := rfl
@[simp] theorem State.setContext_replies : (s.setContext c k).replies = s.replies := rfl
end setContext

section setDin
variable (i w : Nat)
@[simp] theorem State.setDin_cfg : (s.setDin i w).cfg = s.cfg := rfl
@[simp] theorem State.setDin_contexts : (s.setDin i w).contexts = s.contexts := rfl
@[simp] theorem State.setDin_values : (s.setDin i w).values = s.values := rfl
@[simp] theorem State.setDin_t : (s.setDin i w).t = s.t := rfl
@[simp] theorem State.setDin_err : (s.setDin i w).err = s.err := rfl
@[simp] theorem State.setDin_errlog : (s.setDin i w).errlog = s.errlog := rfl
@[simp] theorem State.setDin_din : (s.setDin i w).din = s.din.set i w := rfl
@[simp] theorem State.setDin_dout : (s.setDin i w).dout = s.dout := rfl
@[simp] theorem State.setDin_dlen : (s.setDin i w).dlen = s.dlen := rfl
@[simp] theorem State.setDin_bout : (s.setDin i w).bout = s.bout := rfl
@[simp] theorem State.setDin_blen : (s.setDin i w).blen = s.blen := rfl
@[simp] theorem State.setDin_pending : (s.setDin i w).pending = s.pending := rfl
@[simp] theorem State.setDin_replies : (s.setDin i w).replies = s.replies := rfl
end setDin

section setDout
variable (x n : Nat)
@[simp] theorem State.setDout_cfg : (s.setDout x n).cfg = s.cfg := rfl
@[simp] theorem State.setDout_contexts : (s.setDout x n).contexts = s.contexts := rfl
@[simp] theorem State.setDout_values : (s.setDout x n).values = s.values := rfl
@[simp] theorem State.setDout_t : (s.setDout x n).t = s.t := rfl
@[simp] theorem State.setDout_err : (s.setDout x n).err = s.err := rfl
@[simp] theorem State.setDout_errlog : (s.setDout x n).errlog = s.errlog := rfl
@[simp] theorem State.setDout_din : (s.setDout x n).din = s.din := rfl
@[simp] theorem State.setDout_dout : (s.setDout x n).dout = wordsOf s.cfg.W s.cfg.nMax x := rfl
@[simp] theorem State.setDout_dlen : (s.setDout x n).dlen = dlenOf n := rfl
@[simp] theorem State.setDout_bout : (s.setDout x n).bout = s.bout := rfl
@[simp] theorem State.setDout_blen : (s.setDout x n).blen = s.blen := rfl
@[simp] theorem State.setDout_pending : (s.setDout x n).pending = s.pending := rfl
@[simp] theorem State.setDout_replies : (s.setDout x n).replies = s.replies := rfl
end setDout

section setBout
variable (x L : Nat)
@[simp] theorem State.setBout_cfg : (s.setBout x L).cfg = s.cfg := rfl
@[simp] theorem State.setBout_contexts : (s.setBout x L).contexts = s.contexts := rfl
@[simp] theorem State.setBout_values : (s.setBout x L).values = s.values := rfl
@[simp] theorem State.setBout_t : (s.setBout x L).t = s.t := rfl
@[simp] theorem State.setBout_err : (s.setBout x L).err = s.err := rfl
@[simp] theorem State.setBout_errlog : (s.setBout x L).errlog = s.errlog := rfl
@[simp] theorem State.setBout_din : (s.setBout x L).din = s.din := rfl
@[simp] theorem State.setBout_dout : (s.setBout x L).dout = s.dout := rfl
@[simp] theorem State.setBout_dlen : (s.setBout x L).dlen = s.dlen := rfl
@[simp] theorem State.setBout_bout : (s.setBout x L).bout = bigEndian x L ++ List.replicate (s.cfg.bytesMax - L) 0 := rfl
@[simp] theorem State.setBout_blen : (s.setBout x L).blen = blenOf L := rfl
@[simp] theorem State.setBout_pending : (s.setBout x L).pending = s.pending := rfl
@[simp] theorem State.setBout_replies : (s.setBout x L).replies = s.replies := rfl
end setBout

section setT
variable (b : Bool)
@[simp] theorem State.setT_cfg : (s.setT b).cfg = s.cfg := rfl
@[simp] theorem State.setT_contexts : (s.setT b).contexts = s.contexts := rfl
@[simp] theorem State.setT_values : (s.setT b).values = s.values := rfl
@[simp] theorem State.setT_t : (s.setT b).t = b := rfl
@[simp] theorem State.setT_err : (s.setT b).err = s.err := rfl
@[simp] theorem State.setT_errlog : (s.setT b).errlog = s.errlog := rfl
@[simp] theorem State.setT_din : (s.setT b).din = s.din := rfl
@[simp] theorem State.setT_dout : (s.setT b).dout = s.dout := rfl
@[simp] theorem State.setT_dlen : (s.setT b).dlen = s.dlen := rfl
@[simp] theorem State.setT_bout : (s.setT b).bout = s.bout := rfl
@[simp] theorem State.setT_blen : (s.setT b).blen = s.blen := rfl
@[simp] theorem State.setT_pending : (s.setT b).pending = s.pending := rfl
@[simp] theorem State.setT_replies : (s.setT b).replies = s.replies := rfl
end setT

section reply
variable (x : Nat)
@[simp] theorem State.reply_cfg : (s.reply x).cfg = s.cfg := rfl
@[simp] theorem State.reply_contexts : (s.reply x).contexts = s.contexts := rfl
@[simp] theorem State.reply_values : (s.reply x).values = s.values := rfl
@[simp] theorem State.reply_t : (s.reply x).t = s.t := rfl
@[simp] theorem State.reply_err : (s.reply x).err = s.err := rfl
@[simp] theorem State.reply_errlog : (s.reply x).errlog = s.errlog := rfl
@[simp] theorem State.reply_din : (s.reply x).din = s.din := rfl
@[simp] theorem State.reply_dout : (s.reply x).dout = s.dout := rfl
@[simp] theorem State.reply_dlen : (s.reply x).dlen = s.dlen := rfl
@[simp] theorem State.reply_bout : (s.reply x).bout = s.bout := rfl
@[simp] theorem State.reply_blen : (s.reply x).blen = s.blen := rfl
@[simp] theorem State.reply_pending : (s.reply x).pending = s.pending := rfl
@[simp] theorem State.reply_replies : (s.reply x).replies = x :: s.replies := rfl
end reply

section ask
variable (txs : List Transaction)
@[simp] theorem State.ask_cfg : (s.ask txs).cfg = s.cfg := rfl
@[simp] theorem State.ask_contexts : (s.ask txs).contexts = s.contexts := rfl
@[simp] theorem State.ask_values : (s.ask txs).values = s.values := rfl
@[simp] theorem State.ask_t : (s.ask txs).t = s.t := rfl
@[simp] theorem State.ask_err : (s.ask txs).err = s.err := rfl
@[simp] theorem State.ask_errlog : (s.ask txs).errlog = s.errlog := rfl
@[simp] theorem State.ask_din : (s.ask txs).din = s.din := rfl
@[simp] theorem State.ask_dout : (s.ask txs).dout = s.dout := rfl
@[simp] theorem State.ask_dlen : (s.ask txs).dlen = s.dlen := rfl
@[simp] theorem State.ask_bout : (s.ask txs).bout = s.bout := rfl
@[simp] theorem State.ask_blen : (s.ask txs).blen = s.blen := rfl
@[simp] theorem State.ask_pending : (s.ask txs).pending = txs ++ s.pending := rfl
@[simp] theorem State.ask_replies : (s.ask txs).replies = s.replies := rfl
end ask

/-! What HostReset leaves (R40, R200). -/

@[simp] theorem hostReset_cfg : (hostReset s).cfg = s.cfg := rfl
@[simp] theorem hostReset_contexts : (hostReset s).contexts = List.replicate s.cfg.nP none := rfl
@[simp] theorem hostReset_values : (hostReset s).values = List.replicate s.cfg.nV none := rfl
@[simp] theorem hostReset_t : (hostReset s).t = false := rfl
@[simp] theorem hostReset_err : (hostReset s).err = 0 := rfl
@[simp] theorem hostReset_errlog : (hostReset s).errlog = 0 := rfl
@[simp] theorem hostReset_din : (hostReset s).din = List.replicate s.cfg.nMax 0 := rfl
@[simp] theorem hostReset_dout : (hostReset s).dout = List.replicate s.cfg.nMax 0 := rfl
@[simp] theorem hostReset_dlen : (hostReset s).dlen = 0 := rfl
@[simp] theorem hostReset_bout : (hostReset s).bout = List.replicate s.cfg.bytesMax 0 := rfl
@[simp] theorem hostReset_blen : (hostReset s).blen = 0 := rfl
@[simp] theorem hostReset_pending : (hostReset s).pending = s.pending := rfl
@[simp] theorem hostReset_replies : (hostReset s).replies = s.replies := rfl

/-! What the lookups and the operand forms see of an update. -/

theorem State.valueAt_congr {s t : State} (h : t.values = s.values) (i : Nat) : t.valueAt i = s.valueAt i := by
  simp only [State.valueAt, h]

theorem State.contextAt_congr {s t : State} (h : t.contexts = s.contexts) (c : Nat) :
    t.contextAt c = s.contextAt c := by
  simp only [State.contextAt, h]

@[simp] theorem State.contextAt_setValue (i c : Nat) (o : Option Value) :
    (s.setValue i o).contextAt c = s.contextAt c := rfl

@[simp] theorem State.valueAt_setContext (i c : Nat) (k : Context) :
    (s.setContext c k).valueAt i = s.valueAt i := rfl

/-- A register reads back what was written to it. -/
theorem State.valueAt_setValue_same {i : Nat} (h : i < s.values.length) (o : Option Value) :
    (s.setValue i o).valueAt i = o := by
  simp [State.valueAt, State.setValue, h]

/-- A write to one register leaves every other as it was. -/
theorem State.valueAt_setValue_other {i j : Nat} (h : i ≠ j) (o : Option Value) :
    (s.setValue i o).valueAt j = s.valueAt j := by
  simp [State.valueAt, State.setValue, List.getElem?_set_ne h]

/-- A context reads back what was constructed in it. -/
theorem State.contextAt_setContext_same {c : Nat} (h : c < s.contexts.length) (k : Context) :
    (s.setContext c k).contextAt c = some k := by
  simp [State.contextAt, State.setContext, h]

/-- Constructing one context leaves every other as it was. -/
theorem State.contextAt_setContext_other {c d : Nat} (h : c ≠ d) (k : Context) :
    (s.setContext c k).contextAt d = s.contextAt d := by
  simp [State.contextAt, State.setContext, List.getElem?_set_ne h]

end Sys2Proof.Machine
end

