-- ==== Sys2Proof/Laws/Operands.lean ====
section
/-! SUPPORT. One lemma per operand form: when it answers its operands, and with which code it fails otherwise. And
the inversion of `State.complete`: how a command can end. -/

namespace Sys2Proof.Machine

section except
variable {ε α β : Type} {x : Except ε α} {f : α → Except ε β}

theorem bind_eq_ok_iff {b : β} : (x >>= f) = .ok b ↔ ∃ a, x = .ok a ∧ f a = .ok b := by
  cases x <;> simp [bind, Except.bind]

theorem bind_eq_error_iff {e : ε} : (x >>= f) = .error e ↔ x = .error e ∨ ∃ a, x = .ok a ∧ f a = .error e := by
  cases x <;> simp [bind, Except.bind]

@[simp] theorem ok_bind (a : α) : ((.ok a : Except ε α) >>= f) = f a := rfl

@[simp] theorem error_bind (e : ε) : ((.error e : Except ε α) >>= f) = .error e := rfl

end except

variable {s t : State}

/-- A command ends in one of two ways (R189, R190). -/
theorem State.complete_eq_next_iff {r : Except ErrorCode State} :
    s.complete r = .next t ↔ (∃ u, r = .ok u ∧ t = u.succeed) ∨ ∃ e, r = .error e ∧ t = s.fail e := by
  cases r <;> simp [State.complete, eq_comm]

@[simp] theorem State.complete_ok (u : State) : s.complete (.ok u) = .next u.succeed := rfl

@[simp] theorem State.complete_error (e : ErrorCode) : s.complete (.error e) = .next (s.fail e) := rfl

@[simp] theorem regInRange_iff {k : Config} {i : Index} : regInRange k i = true ↔ i.toNat < k.nV := by
  simp [regInRange]

@[simp] theorem ctxInRange_iff {k : Config} {i : Index} : ctxInRange k i = true ↔ i.toNat < k.nP := by
  simp [ctxInRange]

theorem needReg_ok_iff {i : Index} {u : Unit} : needReg s i = .ok u ↔ i.toNat < s.cfg.nV := by
  simp [needReg]

theorem needReg_error_iff {i : Index} {e : ErrorCode} :
    needReg s i = .error e ↔ e = .illegalCommand ∧ s.cfg.nV ≤ i.toNat := by
  simp only [needReg, regInRange_iff]; split <;> simp_all [eq_comm]

theorem needCtx_ok_iff {i : Index} {u : Unit} : needCtx s i = .ok u ↔ i.toNat < s.cfg.nP := by
  simp [needCtx]

theorem needCtx_error_iff {i : Index} {e : ErrorCode} :
    needCtx s i = .error e ↔ e = .illegalCommand ∧ s.cfg.nP ≤ i.toNat := by
  simp only [needCtx, ctxInRange_iff]; split <;> simp_all [eq_comm]

theorem sourceReg_ok_iff {i : Index} {a : Value} : sourceReg s i = .ok a ↔ s.valueAt i.toNat = some a := by
  simp only [sourceReg]; split <;> simp_all

theorem sourceReg_error_iff {i : Index} {e : ErrorCode} :
    sourceReg s i = .error e ↔ e = .unwritten ∧ s.valueAt i.toNat = none := by
  simp only [sourceReg]; split <;> rename_i h <;> simp [h, eq_comm]

theorem fieldsOf_ok_iff {c : Nat} {k : Context} : fieldsOf s c = .ok k ↔ s.contextAt c = some k := by
  simp only [fieldsOf]; split <;> simp_all

theorem fieldsOf_error_iff {c : Nat} {e : ErrorCode} :
    fieldsOf s c = .error e ↔ e = .unwritten ∧ s.contextAt c = none := by
  simp only [fieldsOf]; split <;> rename_i h <;> simp [h, eq_comm]

/-- Format P answers exactly when its context is in range and not referenced. -/
theorem formatP_ok_iff {ctx : Index} {u : Unit} :
    formatP s ctx = .ok u ↔ ctx.toNat < s.cfg.nP ∧ s.referenced ctx.toNat = false := by
  simp [formatP, bind_eq_ok_iff, needCtx_ok_iff]

/-- Format N answers exactly when its indices are in range and its context valid. -/
theorem formatN_ok_iff {vd ctx : Index} {k : Context} :
    formatN s vd ctx = .ok k ↔
      vd.toNat < s.cfg.nV ∧ ctx.toNat < s.cfg.nP ∧ s.contextAt ctx.toNat = some k := by
  simp [formatN, bind_eq_ok_iff, needReg_ok_iff, needCtx_ok_iff, fieldsOf_ok_iff]

/-- Formats RRR answer exactly when the indices are in range and the sources valid and of one context. -/
theorem formatRRR_ok_iff {vd va vb : Index} {a b : Value} :
    formatRRR s vd va vb = .ok (a, b) ↔
      (vd.toNat < s.cfg.nV ∧ va.toNat < s.cfg.nV ∧ vb.toNat < s.cfg.nV) ∧
        s.valueAt va.toNat = some a ∧ s.valueAt vb.toNat = some b ∧ a.ctx = b.ctx := by
  simp only [formatRRR, bind_eq_ok_iff, needReg_ok_iff, sourceReg_ok_iff]
  constructor
  · rintro ⟨_, h1, _, h2, _, h3, a', ha, b', hb, h⟩
    split at h
    · cases h; exact ⟨⟨h1, h2, h3⟩, ha, hb, by assumption⟩
    · cases h
  · rintro ⟨⟨h1, h2, h3⟩, ha, hb, h⟩
    exact ⟨(), h1, (), h2, (), h3, a, ha, b, hb, by simp [h]⟩

/-- Formats RR answer exactly when the indices are in range and the source valid. -/
theorem formatRR_ok_iff {vd va : Index} {a : Value} :
    formatRR s vd va = .ok a ↔
      (vd.toNat < s.cfg.nV ∧ va.toNat < s.cfg.nV) ∧ s.valueAt va.toNat = some a := by
  simp [formatRR, bind_eq_ok_iff, needReg_ok_iff, sourceReg_ok_iff, and_assoc]

/-- Format S answers exactly when the index is in range and the source valid. -/
theorem formatS_ok_iff {va : Index} {a : Value} :
    formatS s va = .ok a ↔ va.toNat < s.cfg.nV ∧ s.valueAt va.toNat = some a := by
  simp [formatS, bind_eq_ok_iff, needReg_ok_iff, sourceReg_ok_iff]

/-- Formats SS answer exactly when the indices are in range and the sources valid and of one context. -/
theorem formatSS_ok_iff {va vb : Index} {a b : Value} :
    formatSS s va vb = .ok (a, b) ↔
      (va.toNat < s.cfg.nV ∧ vb.toNat < s.cfg.nV) ∧
        s.valueAt va.toNat = some a ∧ s.valueAt vb.toNat = some b ∧ a.ctx = b.ctx := by
  simp only [formatSS, bind_eq_ok_iff, needReg_ok_iff, sourceReg_ok_iff]
  constructor
  · rintro ⟨_, h1, _, h2, a', ha, b', hb, h⟩
    split at h
    · cases h; exact ⟨⟨h1, h2⟩, ha, hb, by assumption⟩
    · cases h
  · rintro ⟨⟨h1, h2⟩, ha, hb, h⟩
    exact ⟨(), h1, (), h2, a, ha, b, hb, by simp [h]⟩

/-! With which code each form fails: an index out of range first, then a source that is not valid, then two contexts. -/

theorem needReg_ok {i : Index} (h : i.toNat < s.cfg.nV) : needReg s i = .ok () := needReg_ok_iff.2 h

theorem needCtx_ok {i : Index} (h : i.toNat < s.cfg.nP) : needCtx s i = .ok () := needCtx_ok_iff.2 h

theorem needReg_cases (s : State) (i : Index) :
    (i.toNat < s.cfg.nV ∧ needReg s i = .ok ()) ∨ (s.cfg.nV ≤ i.toNat ∧ needReg s i = .error .illegalCommand) := by
  rcases Nat.lt_or_ge i.toNat s.cfg.nV with h | h
  · exact .inl ⟨h, needReg_ok h⟩
  · exact .inr ⟨h, needReg_error_iff.2 ⟨rfl, h⟩⟩

theorem needCtx_cases (s : State) (i : Index) :
    (i.toNat < s.cfg.nP ∧ needCtx s i = .ok ()) ∨ (s.cfg.nP ≤ i.toNat ∧ needCtx s i = .error .illegalCommand) := by
  rcases Nat.lt_or_ge i.toNat s.cfg.nP with h | h
  · exact .inl ⟨h, needCtx_ok h⟩
  · exact .inr ⟨h, needCtx_error_iff.2 ⟨rfl, h⟩⟩

theorem formatP_illegal {ctx : Index} (h : s.cfg.nP ≤ ctx.toNat) : formatP s ctx = .error .illegalCommand := by
  simp [formatP, needCtx_error_iff.2 ⟨rfl, h⟩]

theorem formatP_busy {ctx : Index} (h : ctx.toNat < s.cfg.nP) (hr : s.referenced ctx.toNat = true) :
    formatP s ctx = .error .contextBusy := by
  rw [formatP, needCtx_ok h, ok_bind, if_pos hr]

theorem formatN_illegal {vd ctx : Index} (h : s.cfg.nV ≤ vd.toNat ∨ s.cfg.nP ≤ ctx.toNat) :
    formatN s vd ctx = .error .illegalCommand := by
  rcases needReg_cases s vd with ⟨h1, e1⟩ | ⟨-, e1⟩
  · have h2 : s.cfg.nP ≤ ctx.toNat := by omega
    simp [formatN, e1, needCtx_error_iff.2 ⟨rfl, h2⟩]
  · simp [formatN, e1]

theorem formatN_unwritten {vd ctx : Index} (h1 : vd.toNat < s.cfg.nV) (h2 : ctx.toNat < s.cfg.nP)
    (h : s.contextAt ctx.toNat = none) : formatN s vd ctx = .error .unwritten := by
  rw [formatN, needReg_ok h1, ok_bind, needCtx_ok h2, ok_bind, fieldsOf_error_iff.2 ⟨rfl, h⟩]

theorem formatRR_illegal {vd va : Index} (h : s.cfg.nV ≤ vd.toNat ∨ s.cfg.nV ≤ va.toNat) :
    formatRR s vd va = .error .illegalCommand := by
  rcases needReg_cases s vd with ⟨h1, e1⟩ | ⟨-, e1⟩
  · have h2 : s.cfg.nV ≤ va.toNat := by omega
    simp [formatRR, e1, needReg_error_iff.2 ⟨rfl, h2⟩]
  · simp [formatRR, e1]

theorem formatRR_unwritten {vd va : Index} (h1 : vd.toNat < s.cfg.nV) (h2 : va.toNat < s.cfg.nV)
    (h : s.valueAt va.toNat = none) : formatRR s vd va = .error .unwritten := by
  simp [formatRR, needReg_ok h1, needReg_ok h2, sourceReg_error_iff.2 ⟨rfl, h⟩]

theorem formatS_illegal {va : Index} (h : s.cfg.nV ≤ va.toNat) : formatS s va = .error .illegalCommand := by
  simp [formatS, needReg_error_iff.2 ⟨rfl, h⟩]

theorem formatS_unwritten {va : Index} (h1 : va.toNat < s.cfg.nV) (h : s.valueAt va.toNat = none) :
    formatS s va = .error .unwritten := by
  simp [formatS, needReg_ok h1, sourceReg_error_iff.2 ⟨rfl, h⟩]

/-- Formats SS fail as their sources do. -/
theorem formatSS_illegal {va vb : Index} (h : s.cfg.nV ≤ va.toNat ∨ s.cfg.nV ≤ vb.toNat) :
    formatSS s va vb = .error .illegalCommand := by
  rcases needReg_cases s va with ⟨h1, e1⟩ | ⟨-, e1⟩
  · have h2 : s.cfg.nV ≤ vb.toNat := by omega
    simp [formatSS, e1, needReg_error_iff.2 ⟨rfl, h2⟩]
  · simp [formatSS, e1]

theorem formatSS_unwritten {va vb : Index} (h1 : va.toNat < s.cfg.nV) (h2 : vb.toNat < s.cfg.nV)
    (h : s.valueAt va.toNat = none ∨ s.valueAt vb.toNat = none) : formatSS s va vb = .error .unwritten := by
  rcases ha : s.valueAt va.toNat with _ | a
  · simp [formatSS, needReg_ok h1, needReg_ok h2, sourceReg_error_iff.2 ⟨rfl, ha⟩]
  · have hb : s.valueAt vb.toNat = none := by simpa [ha] using h
    simp [formatSS, needReg_ok h1, needReg_ok h2, sourceReg_ok_iff.2 ha, sourceReg_error_iff.2 ⟨rfl, hb⟩]

theorem formatSS_mismatched {va vb : Index} {a b : Value} (h1 : va.toNat < s.cfg.nV) (h2 : vb.toNat < s.cfg.nV)
    (ha : s.valueAt va.toNat = some a) (hb : s.valueAt vb.toNat = some b) (h : a.ctx ≠ b.ctx) :
    formatSS s va vb = .error .mismatchedModulus := by
  simp [formatSS, needReg_ok h1, needReg_ok h2, sourceReg_ok_iff.2 ha, sourceReg_ok_iff.2 hb, h]

/-- Formats RRR are formats SS with a destination in range. -/
theorem formatRRR_eq {vd va vb : Index} :
    formatRRR s vd va vb = (needReg s vd >>= fun _ => formatSS s va vb) := rfl

theorem formatRRR_illegal {vd va vb : Index}
    (h : s.cfg.nV ≤ vd.toNat ∨ s.cfg.nV ≤ va.toNat ∨ s.cfg.nV ≤ vb.toNat) :
    formatRRR s vd va vb = .error .illegalCommand := by
  rcases needReg_cases s vd with ⟨h1, e1⟩ | ⟨-, e1⟩
  · rw [formatRRR_eq, e1, ok_bind, formatSS_illegal (by omega)]
  · simp [formatRRR_eq, e1]

theorem formatP_error {ctx : Index} {e : ErrorCode} (h : formatP s ctx = .error e) :
    e = .illegalCommand ∨ e = .contextBusy := by
  rcases bind_eq_error_iff.1 h with h | ⟨_, -, h⟩
  · exact .inl (needCtx_error_iff.1 h).1
  · split at h <;> cases h
    exact .inr rfl

theorem formatN_error {vd ctx : Index} {e : ErrorCode} (h : formatN s vd ctx = .error e) :
    e = .illegalCommand ∨ e = .unwritten := by
  rcases bind_eq_error_iff.1 h with h | ⟨_, -, h⟩
  · exact .inl (needReg_error_iff.1 h).1
  · rcases bind_eq_error_iff.1 h with h | ⟨_, -, h⟩
    · exact .inl (needCtx_error_iff.1 h).1
    · exact .inr (fieldsOf_error_iff.1 h).1

theorem formatS_error {va : Index} {e : ErrorCode} (h : formatS s va = .error e) :
    e = .illegalCommand ∨ e = .unwritten := by
  rcases bind_eq_error_iff.1 h with h | ⟨_, -, h⟩
  · exact .inl (needReg_error_iff.1 h).1
  · exact .inr (sourceReg_error_iff.1 h).1

theorem formatRR_error {vd va : Index} {e : ErrorCode} (h : formatRR s vd va = .error e) :
    e = .illegalCommand ∨ e = .unwritten := by
  rcases bind_eq_error_iff.1 h with h | ⟨_, -, h⟩
  · exact .inl (needReg_error_iff.1 h).1
  · exact formatS_error h

theorem formatSS_error {va vb : Index} {e : ErrorCode} (h : formatSS s va vb = .error e) :
    e = .illegalCommand ∨ e = .unwritten ∨ e = .mismatchedModulus := by
  rcases bind_eq_error_iff.1 h with h | ⟨_, -, h⟩
  · exact .inl (needReg_error_iff.1 h).1
  · rcases bind_eq_error_iff.1 h with h | ⟨_, -, h⟩
    · exact .inl (needReg_error_iff.1 h).1
    · rcases bind_eq_error_iff.1 h with h | ⟨a, -, h⟩
      · exact .inr (.inl (sourceReg_error_iff.1 h).1)
      · rcases bind_eq_error_iff.1 h with h | ⟨b, -, h⟩
        · exact .inr (.inl (sourceReg_error_iff.1 h).1)
        · split at h <;> cases h
          exact .inr (.inr rfl)

theorem formatRRR_error {vd va vb : Index} {e : ErrorCode} (h : formatRRR s vd va vb = .error e) :
    e = .illegalCommand ∨ e = .unwritten ∨ e = .mismatchedModulus := by
  rcases bind_eq_error_iff.1 h with h | ⟨_, -, h⟩
  · exact .inl (needReg_error_iff.1 h).1
  · exact formatSS_error h

theorem formatRRR_of_range {vd va vb : Index} (h : vd.toNat < s.cfg.nV) :
    formatRRR s vd va vb = formatSS s va vb := by
  rw [formatRRR_eq, needReg_ok h, ok_bind]

end Sys2Proof.Machine
end

