-- ==== Sys2Proof/Laws/Exec.lean ====
section
/-! SUPPORT. What a command does, said once: `Effect` lists, for each command, when it succeeds and the state its
results make; every command ends in the effect it lists or in a failure (`exec_effect_or_fails`), and one that
can have its effect has it (`exec_of_effect`). -/

namespace Sys2Proof.Machine

/-- `Effect s i u`: command `i` succeeds in `s`, and `u` is `s` with its results written. -/
inductive Effect (s : State) : Instr → State → Prop where
  | psetup (ctx : Index) (range : ctx.toNat < s.cfg.nP) (free : s.referenced ctx.toNat = false)
      (odd : s.dinInt % 2 = 1) (large : 1 < s.dinInt) :
      Effect s (.psetup ctx) (s.setContext ctx.toNat (Context.ofModulus s.cfg.W s.dinInt))
  | vnewEnter (vd ctx : Index) (k : Context) (range : vd.toNat < s.cfg.nV) (crange : ctx.toNat < s.cfg.nP)
      (valid : s.contextAt ctx.toNat = some k) (small : s.dinInt < k.R s.cfg.W) :
      Effect s (.vnew vd ctx true) (s.setValue vd.toNat (some ⟨ctx.toNat, k.enter s.cfg.W s.dinInt⟩))
  | vnewRaw (vd ctx : Index) (k : Context) (range : vd.toNat < s.cfg.nV) (crange : ctx.toNat < s.cfg.nP)
      (valid : s.contextAt ctx.toNat = some k) (small : s.dinInt < k.p) :
      Effect s (.vnew vd ctx false) (s.setValue vd.toNat (some ⟨ctx.toNat, s.dinInt⟩))
  | vfree (vd : Index) (range : vd.toNat < s.cfg.nV) : Effect s (.vfree vd) (s.setValue vd.toNat none)
  | fixsz (vd : Index) (a : Value) (range : vd.toNat < s.cfg.nV) (source : s.valueAt vd.toNat = some a) :
      Effect s (.fixsz vd) (s.setValue vd.toNat (some a))
  | add (vd va vb : Index) (a b : Value) (k : Context) (ops : formatRRR s vd va vb = .ok (a, b))
      (valid : s.contextAt a.ctx = some k) :
      Effect s (.add vd va vb) (s.setValue vd.toNat (some ⟨a.ctx, modAdd k.p a.v b.v⟩))
  | sub (vd va vb : Index) (a b : Value) (k : Context) (ops : formatRRR s vd va vb = .ok (a, b))
      (valid : s.contextAt a.ctx = some k) :
      Effect s (.sub vd va vb) (s.setValue vd.toNat (some ⟨a.ctx, modSub k.p a.v b.v⟩))
  | mul (vd va vb : Index) (a b : Value) (k : Context) (ops : formatRRR s vd va vb = .ok (a, b))
      (valid : s.contextAt a.ctx = some k) :
      Effect s (.mul vd va vb) (s.setValue vd.toNat (some ⟨a.ctx, k.redc s.cfg.W (a.v * b.v)⟩))
  | sqr (vd va : Index) (a : Value) (k : Context) (ops : formatRR s vd va = .ok a)
      (valid : s.contextAt a.ctx = some k) :
      Effect s (.sqr vd va) (s.setValue vd.toNat (some ⟨a.ctx, k.redc s.cfg.W (a.v * a.v)⟩))
  | inv (vd va : Index) (a : Value) (k : Context) (ops : formatRR s vd va = .ok a)
      (valid : s.contextAt a.ctx = some k) (coprime : Nat.gcd (k.redc s.cfg.W a.v) k.p = 1) :
      Effect s (.inv vd va)
        (s.setValue vd.toNat (some ⟨a.ctx, k.enter s.cfg.W (invMod (k.redc s.cfg.W a.v) k.p)⟩))
  | neg (vd va : Index) (a : Value) (k : Context) (ops : formatRR s vd va = .ok a)
      (valid : s.contextAt a.ctx = some k) :
      Effect s (.neg vd va) (s.setValue vd.toNat (some ⟨a.ctx, modNeg k.p a.v⟩))
  | mul2 (vd va : Index) (a : Value) (k : Context) (ops : formatRR s vd va = .ok a)
      (valid : s.contextAt a.ctx = some k) :
      Effect s (.mul2 vd va) (s.setValue vd.toNat (some ⟨a.ctx, smul 2 a.v k.p⟩))
  | mul3 (vd va : Index) (a : Value) (k : Context) (ops : formatRR s vd va = .ok a)
      (valid : s.contextAt a.ctx = some k) :
      Effect s (.mul3 vd va) (s.setValue vd.toNat (some ⟨a.ctx, smul 3 a.v k.p⟩))
  | mul4 (vd va : Index) (a : Value) (k : Context) (ops : formatRR s vd va = .ok a)
      (valid : s.contextAt a.ctx = some k) :
      Effect s (.mul4 vd va) (s.setValue vd.toNat (some ⟨a.ctx, smul 4 a.v k.p⟩))
  | mul8 (vd va : Index) (a : Value) (k : Context) (ops : formatRR s vd va = .ok a)
      (valid : s.contextAt a.ctx = some k) :
      Effect s (.mul8 vd va) (s.setValue vd.toNat (some ⟨a.ctx, smul 8 a.v k.p⟩))
  | value (va : Index) (a : Value) (k : Context) (ops : formatS s va = .ok a)
      (valid : s.contextAt a.ctx = some k) :
      Effect s (.value va) (s.setDout (k.redc s.cfg.W a.v) k.pWords)
  | ser (va : Index) (a : Value) (k : Context) (ops : formatS s va = .ok a)
      (valid : s.contextAt a.ctx = some k) :
      Effect s (.ser va) (s.setBout (k.redc s.cfg.W a.v) (ceilDiv (bitlen k.p) 8))
  | iszero (va : Index) (a : Value) (ops : formatS s va = .ok a) :
      Effect s (.iszero va) (s.setT (testZero a))
  | isone (va : Index) (a : Value) (k : Context) (ops : formatS s va = .ok a)
      (valid : s.contextAt a.ctx = some k) :
      Effect s (.isone va) (s.setT (testOne k a))
  | eq (va vb : Index) (a b : Value) (ops : formatSS s va vb = .ok (a, b)) :
      Effect s (.eq va vb) (s.setT (testEq a b))
  | ne (va vb : Index) (a b : Value) (ops : formatSS s va vb = .ok (a, b)) :
      Effect s (.ne va vb) (s.setT (testNe a b))

variable {s : State} {i : Instr}

/-- A command that can have its effect has it. -/
theorem exec_of_effect {u : State} (h : Effect s i u) : exec i s = .next u.succeed := by
  cases h with
  | psetup ctx range free odd large =>
    have h0 : formatP s ctx = .ok () := formatP_ok_iff.2 ⟨range, free⟩
    have h1 : ¬ (s.dinInt = 0 ∨ s.dinInt % 2 = 0 ∨ s.dinInt = 1) := by omega
    simp [exec, execPsetup, h0, h1]
  | vnewEnter vd ctx k range crange valid small =>
    have h0 : formatN s vd ctx = .ok k := formatN_ok_iff.2 ⟨range, crange, valid⟩
    simp [exec, execVnew, h0, newRepresentation, Nat.not_le.2 small]
  | vnewRaw vd ctx k range crange valid small =>
    have h0 : formatN s vd ctx = .ok k := formatN_ok_iff.2 ⟨range, crange, valid⟩
    simp [exec, execVnew, h0, newRepresentation, Nat.not_le.2 small]
  | vfree vd range =>
    have h0 : formatD s vd = .ok () := needReg_ok_iff.2 range
    simp [exec, execVfree, h0]
  | fixsz vd a range source =>
    have h0 : formatD s vd = .ok () := needReg_ok_iff.2 range
    simp [exec, execFixsz, h0, sourceReg_ok_iff.2 source]
  | add _ _ _ _ _ _ ops valid => simp [exec, execAdd, ops, fieldsOf_ok_iff.2 valid]
  | sub _ _ _ _ _ _ ops valid => simp [exec, execSub, ops, fieldsOf_ok_iff.2 valid]
  | mul _ _ _ _ _ _ ops valid => simp [exec, execMul, ops, fieldsOf_ok_iff.2 valid]
  | sqr _ _ _ _ ops valid => simp [exec, execSqr, ops, fieldsOf_ok_iff.2 valid]
  | inv _ _ _ _ ops valid coprime =>
    simp [exec, execInv, ops, fieldsOf_ok_iff.2 valid, invRepresentation, coprime]
  | neg _ _ _ _ ops valid => simp [exec, execNeg, ops, fieldsOf_ok_iff.2 valid]
  | mul2 _ _ _ _ ops valid => simp [exec, execMul2, smallMultiple, ops, fieldsOf_ok_iff.2 valid]
  | mul3 _ _ _ _ ops valid => simp [exec, execMul3, smallMultiple, ops, fieldsOf_ok_iff.2 valid]
  | mul4 _ _ _ _ ops valid => simp [exec, execMul4, smallMultiple, ops, fieldsOf_ok_iff.2 valid]
  | mul8 _ _ _ _ ops valid => simp [exec, execMul8, smallMultiple, ops, fieldsOf_ok_iff.2 valid]
  | value _ _ _ ops valid => simp [exec, execValue, ops, fieldsOf_ok_iff.2 valid]
  | ser _ _ _ ops valid => simp [exec, execSer, ops, fieldsOf_ok_iff.2 valid]
  | iszero _ _ ops => simp [exec, execIszero, ops]
  | isone _ _ _ ops valid => simp [exec, execIsone, ops, fieldsOf_ok_iff.2 valid]
  | eq _ _ _ _ ops => simp [exec, execEq, ops]
  | ne _ _ _ _ ops => simp [exec, execNe, ops]

/-- The shape of every meaning: a command completes with the state its checks and its results give. -/
theorem exec_cases_of_result {r : Except ErrorCode State} (he : exec i s = s.complete r)
    (hr : ∀ u, r = .ok u → Effect s i u) :
    (∃ e, exec i s = .next (s.fail e)) ∨ ∃ u, Effect s i u ∧ exec i s = .next u.succeed := by
  cases r with
  | error e => exact .inl ⟨e, he⟩
  | ok u => exact .inr ⟨u, hr u rfl, he⟩

/-- Every command, in every state, either fails and writes only its error, or has the effect listed for it. -/
theorem exec_effect_or_fails (i : Instr) (s : State) :
    (∃ e, exec i s = .next (s.fail e)) ∨ ∃ u, Effect s i u ∧ exec i s = .next u.succeed := by
  cases i with
  | psetup ctx =>
    refine exec_cases_of_result (i := .psetup ctx) rfl fun u h => ?_
    obtain ⟨_, h0, h⟩ := bind_eq_ok_iff.1 h
    obtain ⟨range, free⟩ := formatP_ok_iff.1 h0
    dsimp only at h
    split at h <;> cases h
    exact .psetup ctx range free (by omega) (by omega)
  | vnew vd ctx e =>
    refine exec_cases_of_result (i := .vnew vd ctx e) rfl fun u h => ?_
    obtain ⟨k, h0, h⟩ := bind_eq_ok_iff.1 h
    obtain ⟨v, h1, h⟩ := bind_eq_ok_iff.1 h
    obtain ⟨range, crange, valid⟩ := formatN_ok_iff.1 h0
    cases h
    cases e <;> simp only [newRepresentation, Bool.false_eq_true, if_false, if_true] at h1 <;>
      split at h1 <;> cases h1
    · exact .vnewRaw vd ctx k range crange valid (by omega)
    · exact .vnewEnter vd ctx k range crange valid (by omega)
  | vfree vd =>
    refine exec_cases_of_result (i := .vfree vd) rfl fun u h => ?_
    obtain ⟨_, h0, h⟩ := bind_eq_ok_iff.1 h
    cases h
    exact .vfree vd (needReg_ok_iff.1 h0)
  | fixsz vd =>
    refine exec_cases_of_result (i := .fixsz vd) rfl fun u h => ?_
    obtain ⟨_, h0, h⟩ := bind_eq_ok_iff.1 h
    obtain ⟨a, h1, h⟩ := bind_eq_ok_iff.1 h
    cases h
    exact .fixsz vd a (needReg_ok_iff.1 h0) (sourceReg_ok_iff.1 h1)
  | add vd va vb =>
    refine exec_cases_of_result (i := .add vd va vb) rfl fun u h => ?_
    obtain ⟨⟨a, b⟩, h0, h⟩ := bind_eq_ok_iff.1 h
    obtain ⟨k, h1, h⟩ := bind_eq_ok_iff.1 h
    cases h
    exact .add vd va vb a b k h0 (fieldsOf_ok_iff.1 h1)
  | sub vd va vb =>
    refine exec_cases_of_result (i := .sub vd va vb) rfl fun u h => ?_
    obtain ⟨⟨a, b⟩, h0, h⟩ := bind_eq_ok_iff.1 h
    obtain ⟨k, h1, h⟩ := bind_eq_ok_iff.1 h
    cases h
    exact .sub vd va vb a b k h0 (fieldsOf_ok_iff.1 h1)
  | mul vd va vb =>
    refine exec_cases_of_result (i := .mul vd va vb) rfl fun u h => ?_
    obtain ⟨⟨a, b⟩, h0, h⟩ := bind_eq_ok_iff.1 h
    obtain ⟨k, h1, h⟩ := bind_eq_ok_iff.1 h
    cases h
    exact .mul vd va vb a b k h0 (fieldsOf_ok_iff.1 h1)
  | sqr vd va =>
    refine exec_cases_of_result (i := .sqr vd va) rfl fun u h => ?_
    obtain ⟨a, h0, h⟩ := bind_eq_ok_iff.1 h
    obtain ⟨k, h1, h⟩ := bind_eq_ok_iff.1 h
    cases h
    exact .sqr vd va a k h0 (fieldsOf_ok_iff.1 h1)
  | inv vd va =>
    refine exec_cases_of_result (i := .inv vd va) rfl fun u h => ?_
    obtain ⟨a, h0, h⟩ := bind_eq_ok_iff.1 h
    obtain ⟨k, h1, h⟩ := bind_eq_ok_iff.1 h
    obtain ⟨v, h2, h⟩ := bind_eq_ok_iff.1 h
    cases h
    simp only [invRepresentation] at h2
    split at h2 <;> cases h2
    exact .inv vd va a k h0 (fieldsOf_ok_iff.1 h1) (by omega)
  | neg vd va =>
    refine exec_cases_of_result (i := .neg vd va) rfl fun u h => ?_
    obtain ⟨a, h0, h⟩ := bind_eq_ok_iff.1 h
    obtain ⟨k, h1, h⟩ := bind_eq_ok_iff.1 h
    cases h
    exact .neg vd va a k h0 (fieldsOf_ok_iff.1 h1)
  | mul2 vd va =>
    refine exec_cases_of_result (i := .mul2 vd va) rfl fun u h => ?_
    obtain ⟨a, h0, h⟩ := bind_eq_ok_iff.1 h
    obtain ⟨k, h1, h⟩ := bind_eq_ok_iff.1 h
    cases h
    exact .mul2 vd va a k h0 (fieldsOf_ok_iff.1 h1)
  | mul3 vd va =>
    refine exec_cases_of_result (i := .mul3 vd va) rfl fun u h => ?_
    obtain ⟨a, h0, h⟩ := bind_eq_ok_iff.1 h
    obtain ⟨k, h1, h⟩ := bind_eq_ok_iff.1 h
    cases h
    exact .mul3 vd va a k h0 (fieldsOf_ok_iff.1 h1)
  | mul4 vd va =>
    refine exec_cases_of_result (i := .mul4 vd va) rfl fun u h => ?_
    obtain ⟨a, h0, h⟩ := bind_eq_ok_iff.1 h
    obtain ⟨k, h1, h⟩ := bind_eq_ok_iff.1 h
    cases h
    exact .mul4 vd va a k h0 (fieldsOf_ok_iff.1 h1)
  | mul8 vd va =>
    refine exec_cases_of_result (i := .mul8 vd va) rfl fun u h => ?_
    obtain ⟨a, h0, h⟩ := bind_eq_ok_iff.1 h
    obtain ⟨k, h1, h⟩ := bind_eq_ok_iff.1 h
    cases h
    exact .mul8 vd va a k h0 (fieldsOf_ok_iff.1 h1)
  | value va =>
    refine exec_cases_of_result (i := .value va) rfl fun u h => ?_
    obtain ⟨a, h0, h⟩ := bind_eq_ok_iff.1 h
    obtain ⟨k, h1, h⟩ := bind_eq_ok_iff.1 h
    cases h
    exact .value va a k h0 (fieldsOf_ok_iff.1 h1)
  | ser va =>
    refine exec_cases_of_result (i := .ser va) rfl fun u h => ?_
    obtain ⟨a, h0, h⟩ := bind_eq_ok_iff.1 h
    obtain ⟨k, h1, h⟩ := bind_eq_ok_iff.1 h
    cases h
    exact .ser va a k h0 (fieldsOf_ok_iff.1 h1)
  | iszero va =>
    refine exec_cases_of_result (i := .iszero va) rfl fun u h => ?_
    obtain ⟨a, h0, h⟩ := bind_eq_ok_iff.1 h
    cases h
    exact .iszero va a h0
  | isone va =>
    refine exec_cases_of_result (i := .isone va) rfl fun u h => ?_
    obtain ⟨a, h0, h⟩ := bind_eq_ok_iff.1 h
    obtain ⟨k, h1, h⟩ := bind_eq_ok_iff.1 h
    cases h
    exact .isone va a k h0 (fieldsOf_ok_iff.1 h1)
  | eq va vb =>
    refine exec_cases_of_result (i := .eq va vb) rfl fun u h => ?_
    obtain ⟨⟨a, b⟩, h0, h⟩ := bind_eq_ok_iff.1 h
    cases h
    exact .eq va vb a b h0
  | ne va vb =>
    refine exec_cases_of_result (i := .ne va vb) rfl fun u h => ?_
    obtain ⟨⟨a, b⟩, h0, h⟩ := bind_eq_ok_iff.1 h
    cases h
    exact .ne va vb a b h0

end Sys2Proof.Machine
end

