-- ==== Sys2Proof/Laws/PerInstr.lean ====
section
/-! SUPPORT. Statements about every command as syntax, one lemma per constructor. -/

namespace Sys2Proof.Laws.OpcodeMap

/-- The command's word matches the row of R73's opcode map that bears its mnemonic. -/
def Statement (i : Instr) : Prop :=
  ∃ r ∈ opcodeRows, r.mnemonic = i.mnemonic ∧ encode i &&& r.mask = r.pattern

/-- A word matches a row when its fields do. -/
theorem matches_of_fields {op rd ra rb mo md ma mb : Byte} {pattern : Word32}
    (h : pack (op &&& mo) (rd &&& md) (ra &&& ma) (rb &&& mb) = pattern) :
    pack op rd ra rb &&& pack mo md ma mb = pattern := by
  rw [pack_and]; exact h

theorem psetup (ctx : Index) : Statement (.psetup ctx) :=
  ⟨⟨"PSETUP", 0xFFFF00FF, 0x01000000⟩, by decide, rfl, by
    exact matches_of_fields (mo := 255) (md := 255) (ma := 0) (mb := 255) (by simp only [BitVec.ofNat_eq_ofNat, BitVec.and_zero]; rfl)⟩

theorem vnew (vd ctx : Index) (e : Bool) : Statement (.vnew vd ctx e) :=
  ⟨⟨"VNEW", 0xFF0000FE, 0x02000000⟩, by decide, rfl, by
    cases e <;> exact matches_of_fields (mo := 255) (md := 0) (ma := 0) (mb := 254) (by simp only [BitVec.ofNat_eq_ofNat, BitVec.and_zero]; rfl)⟩

theorem vfree (vd : Index) : Statement (.vfree vd) :=
  ⟨⟨"VFREE", 0xFF00FFFF, 0x03000000⟩, by decide, rfl, by
    exact matches_of_fields (mo := 255) (md := 0) (ma := 255) (mb := 255) (by simp only [BitVec.ofNat_eq_ofNat, BitVec.and_zero]; rfl)⟩

theorem add (vd va vb : Index) : Statement (.add vd va vb) :=
  ⟨⟨"ADD", 0xFF000000, 0x10000000⟩, by decide, rfl, by
    exact matches_of_fields (mo := 255) (md := 0) (ma := 0) (mb := 0) (by simp only [BitVec.ofNat_eq_ofNat, BitVec.and_zero]; rfl)⟩

theorem sub (vd va vb : Index) : Statement (.sub vd va vb) :=
  ⟨⟨"SUB", 0xFF000000, 0x11000000⟩, by decide, rfl, by
    exact matches_of_fields (mo := 255) (md := 0) (ma := 0) (mb := 0) (by simp only [BitVec.ofNat_eq_ofNat, BitVec.and_zero]; rfl)⟩

theorem mul (vd va vb : Index) : Statement (.mul vd va vb) :=
  ⟨⟨"MUL", 0xFF000000, 0x12000000⟩, by decide, rfl, by
    exact matches_of_fields (mo := 255) (md := 0) (ma := 0) (mb := 0) (by simp only [BitVec.ofNat_eq_ofNat, BitVec.and_zero]; rfl)⟩

theorem sqr (vd va : Index) : Statement (.sqr vd va) :=
  ⟨⟨"SQR", 0xFF0000FF, 0x13000000⟩, by decide, rfl, by
    exact matches_of_fields (mo := 255) (md := 0) (ma := 0) (mb := 255) (by simp only [BitVec.ofNat_eq_ofNat, BitVec.and_zero]; rfl)⟩

theorem inv (vd va : Index) : Statement (.inv vd va) :=
  ⟨⟨"INV", 0xFF0000FF, 0x14000000⟩, by decide, rfl, by
    exact matches_of_fields (mo := 255) (md := 0) (ma := 0) (mb := 255) (by simp only [BitVec.ofNat_eq_ofNat, BitVec.and_zero]; rfl)⟩

theorem neg (vd va : Index) : Statement (.neg vd va) :=
  ⟨⟨"NEG", 0xFF0000FF, 0x15000000⟩, by decide, rfl, by
    exact matches_of_fields (mo := 255) (md := 0) (ma := 0) (mb := 255) (by simp only [BitVec.ofNat_eq_ofNat, BitVec.and_zero]; rfl)⟩

theorem mul2 (vd va : Index) : Statement (.mul2 vd va) :=
  ⟨⟨"MUL2", 0xFF0000FF, 0x18000000⟩, by decide, rfl, by
    exact matches_of_fields (mo := 255) (md := 0) (ma := 0) (mb := 255) (by simp only [BitVec.ofNat_eq_ofNat, BitVec.and_zero]; rfl)⟩

theorem mul3 (vd va : Index) : Statement (.mul3 vd va) :=
  ⟨⟨"MUL3", 0xFF0000FF, 0x19000000⟩, by decide, rfl, by
    exact matches_of_fields (mo := 255) (md := 0) (ma := 0) (mb := 255) (by simp only [BitVec.ofNat_eq_ofNat, BitVec.and_zero]; rfl)⟩

theorem mul4 (vd va : Index) : Statement (.mul4 vd va) :=
  ⟨⟨"MUL4", 0xFF0000FF, 0x1A000000⟩, by decide, rfl, by
    exact matches_of_fields (mo := 255) (md := 0) (ma := 0) (mb := 255) (by simp only [BitVec.ofNat_eq_ofNat, BitVec.and_zero]; rfl)⟩

theorem mul8 (vd va : Index) : Statement (.mul8 vd va) :=
  ⟨⟨"MUL8", 0xFF0000FF, 0x1B000000⟩, by decide, rfl, by
    exact matches_of_fields (mo := 255) (md := 0) (ma := 0) (mb := 255) (by simp only [BitVec.ofNat_eq_ofNat, BitVec.and_zero]; rfl)⟩

theorem fixsz (vd : Index) : Statement (.fixsz vd) :=
  ⟨⟨"FIXSZ", 0xFF00FFFF, 0x1C000000⟩, by decide, rfl, by
    exact matches_of_fields (mo := 255) (md := 0) (ma := 255) (mb := 255) (by simp only [BitVec.ofNat_eq_ofNat, BitVec.and_zero]; rfl)⟩

theorem value (va : Index) : Statement (.value va) :=
  ⟨⟨"VALUE", 0xFFFF00FF, 0x20000000⟩, by decide, rfl, by
    exact matches_of_fields (mo := 255) (md := 255) (ma := 0) (mb := 255) (by simp only [BitVec.ofNat_eq_ofNat, BitVec.and_zero]; rfl)⟩

theorem ser (va : Index) : Statement (.ser va) :=
  ⟨⟨"SER", 0xFFFF00FF, 0x21000000⟩, by decide, rfl, by
    exact matches_of_fields (mo := 255) (md := 255) (ma := 0) (mb := 255) (by simp only [BitVec.ofNat_eq_ofNat, BitVec.and_zero]; rfl)⟩

theorem iszero (va : Index) : Statement (.iszero va) :=
  ⟨⟨"ISZERO", 0xFFFF00FF, 0x28000000⟩, by decide, rfl, by
    exact matches_of_fields (mo := 255) (md := 255) (ma := 0) (mb := 255) (by simp only [BitVec.ofNat_eq_ofNat, BitVec.and_zero]; rfl)⟩

theorem isone (va : Index) : Statement (.isone va) :=
  ⟨⟨"ISONE", 0xFFFF00FF, 0x29000000⟩, by decide, rfl, by
    exact matches_of_fields (mo := 255) (md := 255) (ma := 0) (mb := 255) (by simp only [BitVec.ofNat_eq_ofNat, BitVec.and_zero]; rfl)⟩

theorem eq (va vb : Index) : Statement (.eq va vb) :=
  ⟨⟨"EQ", 0xFFFF0000, 0x2A000000⟩, by decide, rfl, by
    exact matches_of_fields (mo := 255) (md := 255) (ma := 0) (mb := 0) (by simp only [BitVec.ofNat_eq_ofNat, BitVec.and_zero]; rfl)⟩

theorem ne (va vb : Index) : Statement (.ne va vb) :=
  ⟨⟨"NE", 0xFFFF0000, 0x2B000000⟩, by decide, rfl, by
    exact matches_of_fields (mo := 255) (md := 255) (ma := 0) (mb := 0) (by simp only [BitVec.ofNat_eq_ofNat, BitVec.and_zero]; rfl)⟩

end Sys2Proof.Laws.OpcodeMap
end

