-- ==== Sys2Proof/Tests/Slice0.lean ====
section
/-! SUPPORT. The model's own tests: ill-formed commands are refused; words written out from R71 and R73, or listed in
95_test_vectors.md section 2.1, decode to what they stand for; one or two steps of each command with the values
95_test_vectors.md gives; and, for each obligation with hypotheses, a state and operands that meet them all. -/

namespace Sys2Proof.Tests

open Sys2Proof Sys2Proof.Machine Sys2Proof.Claims

/-! ## Helpers -/

/-- The next state, when there is one. -/
def answer : Host.Outcome State Fault Refusal → Option State
  | .next t => some t
  | .fault _ => none
  | .refused _ => none

theorem next_of_answer {o : Host.Outcome State Fault Refusal} {P : State → Bool} (h : (answer o).any P = true) :
    ∃ t, o = .next t ∧ P t = true := by
  cases o <;> simp_all [answer]

/-- What the state after HostIssue of `c` shows. -/
def seen {α : Type} (c : Word32) (s : State) (f : State → α) : Option α := (answer (hostIssue c s)).map f

/-- The representation in register `r`. -/
def rep (r : Nat) (s : State) : Option Nat := (s.valueAt r).map (·.v)

/-- `s` after HostLoad(x). -/
def loaded (x : Nat) (s : State) : State := { s with din := wordsOf s.cfg.W s.cfg.nMax x }

/-- `s` with `v` in register 0, under context 0. -/
def holding (v : Nat) (s : State) : State := s.setValue 0 (some ⟨0, v⟩)

/-- `P` for 97 and for 101 at `W = 32` (95_test_vectors.md, 1.2). -/
def ctx97 : Context := { p := 97, pWords := 1, pDash := 0xA0FD5C5F, R1 := 35, R2 := 61, R3 := 1 }

/-- See `ctx97`. -/
def ctx101 : Context := { p := 101, pWords := 1, pDash := 0x83CD4E93, R1 := 68, R2 := 79, R3 := 19 }

/-- Configuration A, the registers of program P1 but V[3] and V[4], which hold nothing. -/
def stA : State :=
  { State.reset with
    contexts := [some ctx97, some ctx101]
    values := [some ⟨0, 78⟩, some ⟨0, 16⟩, some ⟨0, 80⟩, none, none, some ⟨0, 35⟩, some ⟨0, 0⟩, some ⟨1, 37⟩] }

/-- Configuration A, one context, no value. -/
def stOne : State := { State.reset with contexts := [some ctx97, none] }

/-- Configuration B, `P[0]` for 0xF123, the first registers of program P4. -/
def stB : State :=
  { State.resetOf Config.configB with
    contexts := [some { p := 0xF123, pWords := 2, pDash := 0x75, R1 := 0x0EDD, R2 := 0x80CB, R3 := 0x436F }, none]
    values := [some ⟨0, 0x38A7⟩, some ⟨0, 0xC687⟩, some ⟨0, 0x88F8⟩, none, none, some ⟨0, 0x317B⟩, none, none] }

/-- `s` with `tx` as its next transaction. -/
def asking (tx : Transaction) (s : State) : State := { s with pending := [tx] }

/-! ## Ill-formed commands: one per check of WellFormed, and the largest indices of configuration A -/

theorem test_wellFormed_refuses :
    ¬ (Instr.psetup 2).wellFormed .configA ∧ ¬ (Instr.vnew 8 0 true).wellFormed .configA ∧
      ¬ (Instr.vnew 0 2 true).wellFormed .configA ∧ ¬ (Instr.vfree 8).wellFormed .configA ∧
      ¬ (Instr.fixsz 8).wellFormed .configA ∧ ¬ (Instr.value 8).wellFormed .configA ∧
      ¬ (Instr.ser 8).wellFormed .configA ∧ ¬ (Instr.iszero 8).wellFormed .configA ∧
      ¬ (Instr.isone 8).wellFormed .configA := by decide

theorem test_wellFormed_refuses_three :
    ∀ i ∈ [Instr.add 8 0 1, .add 2 8 1, .add 2 0 8, .sub 8 0 1, .sub 2 8 1, .sub 2 0 8, .mul 8 0 1, .mul 2 8 1,
      .mul 2 0 8], ¬ i.wellFormed .configA := by decide

theorem test_wellFormed_refuses_two :
    ∀ i ∈ [Instr.sqr 8 0, .sqr 0 8, .inv 8 0, .inv 0 8, .neg 8 0, .neg 0 8, .mul2 8 0, .mul2 0 8, .mul3 8 0,
      .mul3 0 8, .mul4 8 0, .mul4 0 8, .mul8 8 0, .mul8 0 8, .eq 8 0, .eq 0 8, .ne 8 0, .ne 0 8],
      ¬ i.wellFormed .configA := by decide

theorem test_wellFormed_admits :
    ∀ i ∈ [Instr.psetup 1, .vnew 7 1 false, .vfree 7, .add 7 7 7, .sub 7 7 7, .mul 7 7 7, .sqr 7 7, .inv 7 7,
      .neg 7 7, .mul2 7 7, .mul3 7 7, .mul4 7 7, .mul8 7 7, .fixsz 7, .value 7, .ser 7, .iszero 7, .isone 7,
      .eq 7 7, .ne 7 7], i.wellFormed .configA := by decide

/-! ## Decoding: words of 95_test_vectors.md 2.1, and one word of each family bit by bit from R71 and R73 -/

theorem test_decode_lifetime :
    decode 0x01000100 = .ok (.psetup 1) ∧ decode 0x02030001 = .ok (.vnew 3 0 true) ∧
      decode 0x02030000 = .ok (.vnew 3 0 false) ∧ decode 0x03030000 = .ok (.vfree 3) ∧
      decode 0x1C020000 = .ok (.fixsz 2) := ⟨rfl, rfl, rfl, rfl, rfl⟩

theorem test_decode_three :
    decode 0x10020001 = .ok (.add 2 0 1) ∧ decode 0x11020100 = .ok (.sub 2 1 0) ∧
      decode 0x12070707 = .ok (.mul 7 7 7) ∧ decode 0x12050004 = .ok (.mul 5 0 4) := ⟨rfl, rfl, rfl, rfl⟩

theorem test_decode_two :
    decode 0x13030300 = .ok (.sqr 3 3) ∧ decode 0x14040000 = .ok (.inv 4 0) ∧ decode 0x15020000 = .ok (.neg 2 0) ∧
      decode 0x18020000 = .ok (.mul2 2 0) ∧ decode 0x19020000 = .ok (.mul3 2 0) ∧
      decode 0x1A020000 = .ok (.mul4 2 0) ∧ decode 0x1B020000 = .ok (.mul8 2 0) := ⟨rfl, rfl, rfl, rfl, rfl, rfl, rfl⟩

theorem test_decode_exit :
    decode 0x20000200 = .ok (.value 2) ∧ decode 0x21000200 = .ok (.ser 2) ∧ decode 0x28000500 = .ok (.iszero 5) ∧
      decode 0x29000600 = .ok (.isone 6) ∧ decode 0x2A000001 = .ok (.eq 0 1) ∧ decode 0x2B000001 = .ok (.ne 0 1) :=
  ⟨rfl, rfl, rfl, rfl, rfl, rfl⟩

/-- op | rd | ra | rb, each field's bits as R71 and R73 give them, every register field different. -/
theorem test_decode_bits :
    decode 0b00000001_00000000_10000001_00000000 = .ok (.psetup 129) ∧
      decode 0b00000010_10100101_00000110_00000001 = .ok (.vnew 165 6 true) ∧
      decode 0b00010001_00000011_01000000_11111111 = .ok (.sub 3 64 255) ∧
      decode 0b00010100_11110000_00001111_00000000 = .ok (.inv 240 15) ∧
      decode 0b00011011_00000001_10000000_00000000 = .ok (.mul8 1 128) ∧
      decode 0b00100001_00000000_01010101_00000000 = .ok (.ser 85) ∧
      decode 0b00101011_00000000_00000010_10000000 = .ok (.ne 2 128) := ⟨rfl, rfl, rfl, rfl, rfl, rfl, rfl⟩

/-- The words with a reserved opcode 95_test_vectors.md 2.1 lists. -/
theorem test_decode_reserved_opcode :
    decode 0x00000000 = .error (.reservedOpcode 0x00) ∧ decode 0xFFFFFFFF = .error (.reservedOpcode 0xFF) ∧
      decode 0x04000000 = .error (.reservedOpcode 0x04) ∧ decode 0x0F000000 = .error (.reservedOpcode 0x0F) ∧
      decode 0x16000000 = .error (.reservedOpcode 0x16) ∧ decode 0x17020000 = .error (.reservedOpcode 0x17) ∧
      decode 0x1D000000 = .error (.reservedOpcode 0x1D) ∧ decode 0x1F000000 = .error (.reservedOpcode 0x1F) ∧
      decode 0x22000000 = .error (.reservedOpcode 0x22) ∧ decode 0x27000000 = .error (.reservedOpcode 0x27) ∧
      decode 0x2C000000 = .error (.reservedOpcode 0x2C) ∧ decode 0x30000000 = .error (.reservedOpcode 0x30) ∧
      decode 0x80000000 = .error (.reservedOpcode 0x80) :=
  ⟨rfl, rfl, rfl, rfl, rfl, rfl, rfl, rfl, rfl, rfl, rfl, rfl, rfl⟩

/-- The words with a field that is not 0 as its format says, 95_test_vectors.md 2.1. -/
theorem test_decode_reserved_field :
    decode 0x01010000 = .error (.reservedField 0x01) ∧ decode 0x01000001 = .error (.reservedField 0x01) ∧
      decode 0x02030002 = .error (.reservedField 0x02) ∧ decode 0x020300FF = .error (.reservedField 0x02) ∧
      decode 0x03030100 = .error (.reservedField 0x03) ∧ decode 0x03030001 = .error (.reservedField 0x03) ∧
      decode 0x13030301 = .error (.reservedField 0x13) ∧ decode 0x1C020100 = .error (.reservedField 0x1C) ∧
      decode 0x20010200 = .error (.reservedField 0x20) ∧ decode 0x20000201 = .error (.reservedField 0x20) ∧
      decode 0x2A010001 = .error (.reservedField 0x2A) :=
  ⟨rfl, rfl, rfl, rfl, rfl, rfl, rfl, rfl, rfl, rfl, rfl⟩

/-- Words of 95_test_vectors.md 2.1 and programs P1 and P4. -/
theorem test_pseudo_instructions :
    encode (pseudoEnter 7 1) = 0x02070101 ∧ encode (pseudoVraw 3 0) = 0x02030000 ∧
      encode (pseudoMula 1 0) = 0x12010100 ∧ encode (pseudoSqra 3) = 0x13030300 ∧ encode (pseudoInva 0) = 0x14000000 ∧
      encode (pseudoMul8a 3) = 0x1B030300 := by decide

theorem test_decodeTableWord :
    decodeTableWord 32 0x14040000 = some (.inv 4 0) ∧ decodeTableWord 32 0x16000000 = none := by decide

/-! ## The commands -/

/-- Section 2.2, `W = 32`: the largest modulus of configuration A. -/
theorem test_psetup_fields :
    seen 0x01000100 (loaded (2 ^ 127 - 1) stOne) (·.contextAt 1) =
      some (some { p := 2 ^ 127 - 1, pWords := 4, pDash := 1, R1 := 2, R2 := 4, R3 := 8 }) := by decide

/-- Section 2.2: 1 is no modulus; a referenced context is busy before its modulus is looked at. -/
theorem test_psetup_errors :
    seen 0x01000000 (loaded 1 stOne) (·.err) = some 1 ∧ seen 0x01000000 (loaded 96 stA) (·.err) = some 7 := by decide

/-- Section 2.6: `p <= x < R` enters as `x mod p`; `x = R` does not. -/
theorem test_vnew_enter :
    seen 0x02000001 (loaded 0xFFFF stB) (rep 0) = some (some 0x71EE) ∧
      seen 0x02000001 (loaded 0x10000 stB) (·.err) = some 8 := by decide

/-- Section 2.6: a claimed representation is taken as it is, and `p` is none. -/
theorem test_vnew_raw :
    seen 0x02010000 (loaded 0xF122 stB) (rep 1) = some (some 0xF122) ∧
      seen 0x02010000 (loaded 0xF123 stB) (·.err) = some 4 := by decide

/-- Section 2.6, program P5. -/
theorem test_vfree :
    seen 0x03000000 stA (rep 0) = some none ∧ seen 0x03030000 stA (·.err) = some 0 := by decide

/-- Section 2.6. -/
theorem test_fixsz :
    seen 0x1C020000 stA (rep 2) = some (some 80) ∧ seen 0x1C030000 stA (·.err) = some 6 := by decide

/-- Section 2.7: `s = p` exactly, and `s = 2p - 2`. -/
theorem test_add :
    seen 0x10020001 (holding 81 stA) (rep 2) = some (some 0) ∧
      seen 0x10020000 (holding 96 stA) (rep 2) = some (some 95) := by decide

/-- Section 2.7: with and without borrow; the order of the sources. -/
theorem test_sub :
    seen 0x11020001 stA (rep 2) = some (some 62) ∧ seen 0x11020100 stA (rep 2) = some (some 35) := by decide

/-- Section 2.7: the negative of 0 is 0. -/
theorem test_neg :
    seen 0x15030600 stA (rep 3) = some (some 0) ∧ seen 0x15030000 stA (rep 3) = some (some 19) := by decide

/-- Section 2.4: two words, and aliasing of the destination with the first source. -/
theorem test_mul :
    seen 0x12020001 stB (rep 2) = some (some 0x88F8) ∧ seen 0x12000001 stA (rep 0) = some (some 80) := by decide

/-- Section 2.3: the largest product, whose last subtraction fires, and `redc` at its largest input. -/
theorem test_mul_subtraction :
    seen 0x12020000 (holding 0xF122 stB) (rep 2) = some (some 0x361F) ∧
      redc 8 0xF123 2 0x75 0xF122FFFF = 0xBB04 := by decide

/-- Section 2.4: a square, and the square of `p/3`. -/
theorem test_sqr :
    seen 0x13020000 stB (rep 2) = some (some 0xC45A) ∧
      seen 0x13020000 (holding 0x5061 stB) (rep 2) = some (some 0) := by decide

/-- Section 2.5. -/
theorem test_inv :
    seen 0x14030000 stB (rep 3) = some (some 0x8AF1) ∧ seen 0x14040000 stA (rep 4) = some (some 7) := by decide

/-- Section 2.5: no inverse. -/
theorem test_inv_none :
    seen 0x14030100 stB (·.err) = some 3 ∧ seen 0x14060600 stA (·.err) = some 3 := by decide

/-- Section 2.8: both sides of `p/2`. -/
theorem test_mul2 :
    seen 0x18020000 (holding 0x7891 stB) (rep 2) = some (some 0xF122) ∧
      seen 0x18020000 (holding 0x7892 stB) (rep 2) = some (some 1) := by decide

/-- Section 2.8: `3v = p` and `3v = 2p`. -/
theorem test_mul3 :
    seen 0x19020000 (holding 0x5061 stB) (rep 2) = some (some 0) ∧
      seen 0x19020000 (holding 0xA0C2 stB) (rep 2) = some (some 0) := by decide

/-- Section 2.8: both sides of `p/4`. -/
theorem test_mul4 :
    seen 0x1A020000 (holding 0x3C48 stB) (rep 2) = some (some 0xF120) ∧
      seen 0x1A020000 (holding 0x3C49 stB) (rep 2) = some (some 1) := by decide

/-- Section 2.8: both sides of `p/8`. -/
theorem test_mul8 :
    seen 0x1B020000 (holding 0x1E24 stB) (rep 2) = some (some 0xF120) ∧
      seen 0x1B020000 (holding 0x1E25 stB) (rep 2) = some (some 5) := by decide

/-- Section 2.9: word 0 of DOUT is the least significant. -/
theorem test_value :
    seen 0x20000200 stB (fun t => (t.dout, t.dlen)) = some ([0x31, 0xC5, 0, 0], 2) := by decide

/-- Section 2.9: byte 0 of BOUT is the most significant, a leading zero stays. -/
theorem test_ser :
    seen 0x21000200 stB (fun t => (t.bout, t.blen)) = some ([0xC5, 0x31, 0, 0], 2) ∧
      seen 0x21000500 stB (fun t => (t.bout, t.blen)) = some ([0x00, 0x34, 0, 0], 2) := by decide

/-- Section 2.9. -/
theorem test_iszero :
    seen 0x28000600 stA (·.t) = some true ∧ seen 0x28000000 stA (·.t) = some false := by decide

/-- Section 2.9: one is `R1`. -/
theorem test_isone :
    seen 0x29000500 stA (·.t) = some true ∧ seen 0x29000600 stA (·.t) = some false := by decide

/-- Section 2.9. -/
theorem test_eq :
    seen 0x2A000001 stA (·.t) = some false ∧ seen 0x2A000000 stA (·.t) = some true := by decide

/-- Section 2.9; the two instances of section 1.2. -/
theorem test_ne :
    seen 0x2B000001 stA (·.t) = some true ∧ seen 0x2B000007 stA (·.err) = some 2 := by decide

/-- Section 2.10: an index out of range comes before an invalid register. -/
theorem test_priority :
    seen 0x12000309 stA (·.err) = some 5 ∧ seen 0x10000302 stA (·.err) = some 6 := by decide

/-- Program P1: the code in STATUS bits 15:8, T in bit 0, the bit in ERRLOG. -/
theorem test_status :
    (answer (step (asking .hostReadSTATUS { stA with t := true, err := 3, errlog := 8 }))).map (·.replies) =
      some [0x301] := by decide

/-! ## Witnesses: what the hypotheses of each obligation ask is met. The name is the obligation's. -/

/-- What the unary statements' success clauses ask of a state that meets the invariant. -/
abbrev unaryMet (s : State) (l : List Index) (va : Index) (a : Value) (k : Context) : Prop :=
  inRange s l ∧ s.valueAt va.toNat = some a ∧ s.contextAt a.ctx = some k

/-- What the binary statements' success clauses ask of a state that meets the invariant. -/
abbrev binaryMet (s : State) (l : List Index) (va vb : Index) (a b : Value) (k : Context) : Prop :=
  inRange s l ∧ s.valueAt va.toNat = some a ∧ s.valueAt vb.toNat = some b ∧ a.ctx = b.ctx ∧
    s.contextAt a.ctx = some k

theorem stA_inv : stA.Inv := by decide

theorem stB_inv : stB.Inv := by decide

theorem stOne_inv : stOne.Inv := by decide

theorem witness_DecodedWordIsItsEncoding : ∃ c i, decode c = .ok i := ⟨0x10020001, .add 2 0 1, rfl⟩

theorem witness_DecodeAgreesWithOpcodeMap :
    ∃ c : Word32, ∃ r ∈ opcodeRows, ∃ r' ∈ opcodeRows, c &&& r.mask = r.pattern ∧ c &&& r'.mask = r'.pattern :=
  ⟨0x02000001, ⟨"VNEW", 0xFF0000FE, 0x02000000⟩, by decide, ⟨"VNEW", 0xFF0000FE, 0x02000000⟩, by decide, by decide⟩

/-- Both disjuncts; the opcodes where R74's ranges begin and end. -/
theorem witness_ReservedWordsFailIllegal :
    (∀ op ∈ [0x00, 0x04, 0x0F, 0x16, 0x17, 0x1D, 0x1F, 0x22, 0x27, 0x2C, 0xFF], reservedOpcode op) ∧
      (∀ op ∈ [0x01, 0x03, 0x10, 0x15, 0x18, 0x1C, 0x20, 0x21, 0x28, 0x2B], ¬ reservedOpcode op) ∧
        ∀ r ∈ opcodeRows, 0x13030301#32 &&& r.mask ≠ r.pattern := by decide

theorem witness_OutOfRangeIndexFailsIllegal :
    (∃ r ∈ regFields (.add 2 0 8), stA.cfg.nV ≤ r.toNat) ∧ (∃ c ∈ ctxFields (.vnew 0 2 true), stA.cfg.nP ≤ c.toNat) ∧
      (State.resetOf ⟨1, 1, 256, 256⟩).cfg.nV = 256 ∧ (State.resetOf ⟨1, 1, 256, 256⟩).cfg.nP = 256 := by decide

theorem witness_StepRunsTheIssuedCommand :
    ∃ (s : State) (c : Word32) (i : Instr) (rest : List Transaction),
      decode c = .ok i ∧ s.pending = .hostIssue c :: rest := ⟨asking (.hostIssue 0x10020001) stA, _, _, _, rfl, rfl⟩

/-- The last index and word of each range, and the first outside it. -/
theorem witness_HostTransactionEffects :
    3 < stA.cfg.nMax ∧ 2 ^ 32 - 1 < 2 ^ stA.cfg.W ∧ stA.dout[3]? = some 0 ∧ 15 < (stA.cfg.nMax * stA.cfg.W + 7) / 8 ∧
      stA.bout[15]? = some 0 ∧ ¬ inTable stA.cfg (.hostWriteDIN 4 0) ∧ ¬ inTable stA.cfg (.hostWriteDIN 3 (2 ^ 32)) ∧
        ¬ inTable stA.cfg (.hostReadDOUT 4) ∧ ¬ inTable stA.cfg (.hostReadBOUT 16) ∧
          ¬ inTable stA.cfg (.wrongDirection .cmd) := by
  refine ⟨?_, ?_, ?_, ?_, ?_, ?_, ?_, ?_, ?_, ?_⟩ <;> first | decide | (unfold inTable; decide)

/-- The largest integer, all its words written from the most significant down; and 5, with three words left as they
are. -/
theorem witness_HostLoadAndHostFetch :
    stA.Inv ∧ 2 ^ 128 - 1 < 2 ^ (stA.cfg.nMax * stA.cfg.W) ∧ (∀ i ∈ [3, 2, 1, 0], i < stA.cfg.nMax) ∧
      (∀ i, i < stA.cfg.nMax → i ∉ [3, 2, 1, 0] → stA.din[i]? = some (wordOf stA.cfg.W (2 ^ 128 - 1) i)) ∧
        ∀ i, i < stA.cfg.nMax → i ∉ [0] → stA.din[i]? = some (wordOf stA.cfg.W 5 i) :=
  ⟨stA_inv, by decide, by decide, by decide, by decide⟩

theorem witness_FailingCommandWritesOnlyItsError :
    ∃ t, hostIssue 0x12020007 stA = .next t ∧ decide (t.err ≠ 0) = true := next_of_answer (by decide)

theorem witness_SuccessKeepsErrorLog :
    ∃ t, hostIssue 0x12020001 stA = .next t ∧ decide (t.err = 0) = true := next_of_answer (by decide)

/-- A word that is no command, one command for each code, and one that fails no check. -/
theorem witness_FirstFailingCheckDecides :
    stA.Inv ∧ stOne.Inv ∧ stB.Inv ∧ (loaded 0x10000 stB).Inv ∧ (∃ e, decode 0x16000000 = .error e) ∧
      firstError (.mul 0 3 9) stA = some .illegalCommand ∧ firstError (.add 0 3 2) stA = some .unwritten ∧
      firstError (.psetup 0) stA = some .contextBusy ∧ firstError (.eq 0 7) stA = some .mismatchedModulus ∧
      firstError (.psetup 0) stOne = some .invalidModulus ∧ firstError (.inv 3 1) stB = some .notInvertible ∧
      firstError (.vnew 0 0 false) (loaded 0x10000 stB) = some .malformedRepresentation ∧
      firstError (.vnew 0 0 true) (loaded 0x10000 stB) = some .operandRange ∧ firstError (.add 2 0 1) stA = none :=
  ⟨stA_inv, stOne_inv, stB_inv, by decide, ⟨_, rfl⟩, by decide, by decide, by decide, by decide, by decide, by decide,
    by decide, by decide, by decide⟩

theorem witness_CommandsEndOnlyWithTheirCodes : ∃ t, exec (.inv 7 6) stA = .next t ∧ (t.err == 3) = true :=
  next_of_answer (by decide)

/-- A step that sets a bit beside a bit already set, and a reset that clears one. -/
theorem witness_ErrorLogIsSticky :
    (asking (.hostIssue 0x14070600) { stA with err := 2, errlog := 4 }).Inv ∧
      (∃ t, step (asking (.hostIssue 0x14070600) { stA with err := 2, errlog := 4 }) = .next t ∧
        (t.errlog == 0xC && t.err == 3) = true) ∧
      ∃ t, step (asking .hostReset { stA with err := 2, errlog := 4 }) = .next t ∧ (t.errlog == 0) = true :=
  ⟨by decide, next_of_answer (by decide), next_of_answer (by decide)⟩

theorem witness_EveryStepKeepsInvariant :
    (asking (.hostIssue 0x12020001) stA).Inv ∧
      ∃ t, step (asking (.hostIssue 0x12020001) stA) = .next t ∧ decide t.Inv = true :=
  ⟨by decide, next_of_answer (by decide)⟩

theorem witness_ResetMeetsInvariant : Config.configC.wf ∧ Config.wf ⟨1, 1, 1, 1⟩ ∧ Config.wf ⟨1, 1, 256, 256⟩ := by
  decide

/-- A context with `p_words = N_MAX`. -/
theorem witness_ValidContextBounds :
    Config.configA.wf ∧
      Context.Valid .configA { p := 2 ^ 127 - 1, pWords := 4, pDash := 1, R1 := 2, R2 := 4, R3 := 8 } := by decide

theorem witness_ValuesFitTheirWords : stA.Inv ∧ unaryMet stA [7] 7 ⟨1, 37⟩ ctx101 ∧ ctx101.pWords ≤ 1 :=
  ⟨stA_inv, by decide⟩

theorem witness_ContextsChangeOnlyBySetup :
    ∃ t, step (asking (.hostIssue 0x01000100) (loaded 101 stOne)) = .next t ∧
      decide (t.contextAt 1 ≠ (loaded 101 stOne).contextAt 1) = true := next_of_answer (by decide)

/-- One step for each clause. -/
theorem witness_EachBufferHasOneWriter :
    (∃ t, step (asking (.hostWriteDIN 3 1) stA) = .next t ∧ decide (t.din ≠ stA.din) = true) ∧
      (∃ t, step (asking (.hostIssue 0x20000200) stA) = .next t ∧
        decide (t.dout ≠ stA.dout ∧ t.dlen ≠ stA.dlen) = true) ∧
      (∃ t, step (asking (.hostIssue 0x21000200) stA) = .next t ∧
        decide (t.bout ≠ stA.bout ∧ t.blen ≠ stA.blen) = true) ∧
      (∃ t, step (asking (.hostIssue 0x28000600) stA) = .next t ∧ decide (t.t ≠ stA.t) = true) ∧
      ∃ t, step (asking (.hostIssue 0x16000000) stA) = .next t ∧
        decide (t.err ≠ stA.err ∧ t.errlog ≠ stA.errlog) = true :=
  ⟨next_of_answer (by decide), next_of_answer (by decide), next_of_answer (by decide), next_of_answer (by decide),
    next_of_answer (by decide)⟩

theorem witness_RegisterWritersFrame :
    destination (.mul 2 0 1) = some 2 ∧ ∃ t, exec (.mul 2 0 1) stA = .next t ∧ (t.err == 0) = true :=
  ⟨rfl, next_of_answer (by decide)⟩

theorem witness_ReadersFrame :
    destination (.value 2) = none ∧ (∀ ctx, Instr.value 2 ≠ .psetup ctx) ∧
      ∃ t, exec (.value 2) stA = .next t ∧ (t.err == 0) = true := ⟨rfl, by simp, next_of_answer (by decide)⟩

theorem witness_SetupFrame : ∃ t, exec (.psetup 1) (loaded 101 stOne) = .next t ∧ (t.err == 0) = true :=
  next_of_answer (by decide)

theorem witness_OutputsNeverInfluenceCommands :
    (∃ u, exec (.eq 0 0) stA = .next u ∧ (u.err == 0) = true) ∧ (∃ u, exec (.value 0) stA = .next u ∧ (u.err == 0) = true) ∧
      ∃ u, exec (.ser 0) stA = .next u ∧ (u.err == 0) = true :=
  ⟨next_of_answer (by decide), next_of_answer (by decide), next_of_answer (by decide)⟩

theorem witness_ThirdPowerIsNeverRead :
    (∃ u, exec (.inv 3 0) stA = .next u ∧ (u.err == 0) = true) ∧
      ∃ u, exec (.psetup 0) (loaded 97 stOne) = .next u ∧ (u.err == 0) = true :=
  ⟨next_of_answer (by decide), next_of_answer (by decide)⟩

/-- Section 1.2: 39 is the inverse of 5 modulo 97; the least modulus with its least unit. -/
theorem witness_InvModIsTheUniqueInverse :
    (1 < 97 ∧ Nat.gcd 5 97 = 1 ∧ 39 < 97 ∧ 5 * 39 % 97 = 1) ∧ (1 < 2 ∧ Nat.gcd 1 2 = 1 ∧ 1 < 2 ∧ 1 * 1 % 2 = 1) := by
  decide

/-- Section 2.2: `p = 97` at `W = 32`, and at `W = 1`. -/
theorem witness_PdashIsTheUniqueWord :
    (1 ≤ 32 ∧ 97 % 2 = 1 ∧ 0xA0FD5C5F < 2 ^ 32 ∧ (97 % 2 ^ 32 * 0xA0FD5C5F + 1) % 2 ^ 32 = 0) ∧
      (1 ≤ 1 ∧ 1 < 2 ^ 1 ∧ (97 % 2 ^ 1 * 1 + 1) % 2 ^ 1 = 0) := by decide

/-- The largest argument R111 admits. -/
theorem witness_RedcDividesByR :
    Config.configA.wf ∧ Context.Valid .configA ctx97 ∧ 97 * 2 ^ 32 - 1 < ctx97.R Config.configA.W * ctx97.p := by decide

theorem witness_RedcCallSitesAreInDomain :
    Config.configA.wf ∧ Context.Valid .configA ctx97 ∧ 96 < ctx97.p ∧ 2 ^ 32 - 1 < ctx97.R Config.configA.W := by decide

theorem witness_MontgomeryProductIdentity :
    Config.configA.wf ∧ Context.Valid .configA ctx97 ∧ 96 < ctx97.p ∧ 2 ^ 32 - 1 < ctx97.R Config.configA.W := by decide

theorem witness_RepresentationIsABijection :
    Config.configA.wf ∧ Context.Valid .configA ctx97 ∧ 96 < ctx97.p := by decide

theorem witness_SmallMultiplesByDoubling :
    0xA0C2 < 0xF123 ∧ 2 < 3 ∧ Config.configA.wf ∧ Context.Valid .configA ctx97 ∧ 8 ∈ [2, 3, 4, 8] ∧ 96 < ctx97.p := by
  decide

theorem witness_InverseRoutesAgree :
    Config.configA.wf ∧ Context.Valid .configA ctx97 ∧ 78 < ctx97.p ∧ Nat.gcd 78 ctx97.p = 1 := by decide

/-- One state for each clause: index outside, referenced, no modulus (0, even, 1), modulus. -/
theorem witness_SetupConstructsParameters :
    stA.Inv ∧ stA.cfg.nP ≤ (2 : Index).toNat ∧ (1 : Index).toNat < stA.cfg.nP ∧
      (∃ i a, stA.valueAt i = some a ∧ a.ctx = (1 : Index).toNat) ∧
      (loaded 97 stOne).Inv ∧ (¬ ∃ i a, (loaded 97 stOne).valueAt i = some a ∧ a.ctx = (1 : Index).toNat) ∧
      stOne.dinInt = 0 ∧ (loaded 96 stOne).dinInt % 2 = 0 ∧ (loaded 1 stOne).dinInt = 1 ∧
        (loaded 97 stOne).dinInt % 2 = 1 ∧ (loaded 97 stOne).dinInt ≠ 1 := by
  refine ⟨stA_inv, by decide, by decide, ⟨7, ⟨1, 37⟩, by decide⟩, by decide, ?_, by decide, by decide, by decide,
    by decide, by decide⟩
  rintro ⟨i, a, h, -⟩
  simp [loaded, stOne, State.reset, State.resetOf, State.valueAt, List.getElem?_replicate] at h
  split at h <;> cases h

/-- Reserved flag bits, indices outside, an invalid context, and both sides of `p` and of `R`. -/
theorem witness_NewConstructsAValue :
    (0x02 : Byte) &&& 0xFE ≠ 0 ∧ stB.Inv ∧ stB.cfg.nV ≤ (8 : Index).toNat ∧ stB.cfg.nP ≤ (2 : Index).toNat ∧
      (0 : Index).toNat < stB.cfg.nV ∧ (0 : Index).toNat < stB.cfg.nP ∧ stB.contextAt (1 : Index).toNat = none ∧
      ∃ k, stB.contextAt (0 : Index).toNat = some k ∧ k.p ≤ (loaded 0xF123 stB).dinInt ∧
        (loaded 0xF122 stB).dinInt < k.p ∧ k.R stB.cfg.W ≤ (loaded 0x10000 stB).dinInt ∧
          (loaded 0xFFFF stB).dinInt < k.R stB.cfg.W :=
  ⟨by decide, stB_inv, by decide, by decide, by decide, by decide, by decide, _, rfl, by decide, by decide, by decide,
    by decide⟩

/-- A valid register, an invalid one, one outside; and a context only the freed register references. -/
theorem witness_FreeDestroysAValue :
    stA.Inv ∧ (7 : Index).toNat < stA.cfg.nV ∧ stA.cfg.nV ≤ (8 : Index).toNat ∧
      stA.valueAt (3 : Index).toNat = none ∧ ∀ i a, i ≠ (7 : Index).toNat → stA.valueAt i = some a → a.ctx ≠ 1 := by
  refine ⟨stA_inv, by decide, by decide, by decide, fun i a hi ha => ?_⟩
  rcases i with _ | _ | _ | _ | _ | _ | _ | _ | i <;> simp [stA, State.valueAt] at ha hi <;> subst ha <;> decide

/-- The error clauses of the statements with one source: an index outside, a source that holds nothing. -/
theorem witness_unaryErrors :
    stA.Inv ∧ ¬ inRange stA [8, 0] ∧ ¬ inRange stA [0, 8] ∧ ¬ inRange stA [8] ∧ inRange stA [0, 3] ∧ inRange stA [3] ∧
      stA.valueAt (3 : Index).toNat = none := ⟨stA_inv, by decide⟩

/-- The error clauses of the statements with two sources: besides, sources of two contexts. -/
theorem witness_binaryErrors :
    stA.Inv ∧ ¬ inRange stA [8, 0, 1] ∧ ¬ inRange stA [2, 8, 1] ∧ ¬ inRange stA [2, 0, 8] ∧ inRange stA [2, 0, 7] ∧
      stA.valueAt (3 : Index).toNat = none ∧ stA.valueAt (0 : Index).toNat = some ⟨0, 78⟩ ∧
      inRange stA [2, 3, 1] ∧ ¬ inRange stA [8, 1] ∧ ¬ inRange stA [0, 8] ∧ inRange stA [0, 7] ∧ inRange stA [0, 3] ∧
      stA.valueAt (7 : Index).toNat = some ⟨1, 37⟩ ∧ (0 : Nat) ≠ 1 := ⟨stA_inv, by decide⟩

theorem witness_FixSizeChangesNothing : stA.Inv ∧ unaryMet stA [2] 2 ⟨0, 80⟩ ctx97 :=
  ⟨stA_inv, by decide⟩

theorem witness_AddIsModularAddition : stA.Inv ∧ binaryMet stA [2, 0, 1] 0 1 ⟨0, 78⟩ ⟨0, 16⟩ ctx97 :=
  ⟨stA_inv, by decide⟩

theorem witness_SubIsModularSubtraction : stA.Inv ∧ binaryMet stA [2, 1, 0] 1 0 ⟨0, 16⟩ ⟨0, 78⟩ ctx97 :=
  ⟨stA_inv, by decide⟩

theorem witness_NegIsAdditiveInverse :
    stA.Inv ∧ unaryMet stA [3, 0] 0 ⟨0, 78⟩ ctx97 ∧ unaryMet stA [3, 6] 6 ⟨0, 0⟩ ctx97 :=
  ⟨stA_inv, by decide⟩

/-- The second has `R1` as a source. -/
theorem witness_MulIsMontgomeryMultiplication :
    stA.Inv ∧ binaryMet stA [2, 0, 1] 0 1 ⟨0, 78⟩ ⟨0, 16⟩ ctx97 ∧ binaryMet stA [0, 5, 0] 5 0 ⟨0, 35⟩ ⟨0, 78⟩ ctx97 ∧
      ctx97.R1 = 35 :=
  ⟨stA_inv, by decide⟩

/-- The second has the source 1, the third -1. -/
theorem witness_SqrIsMontgomerySquaring :
    stA.Inv ∧ unaryMet stA [3, 0] 0 ⟨0, 78⟩ ctx97 ∧ unaryMet stA [3, 5] 5 ⟨0, 35⟩ ctx97 ∧
      (holding 62 stA).Inv ∧ unaryMet (holding 62 stA) [3, 0] 0 ⟨0, 62⟩ ctx97 ∧ 62 + ctx97.R1 = ctx97.p :=
  ⟨stA_inv, by decide, by decide, by decide, by decide, by decide⟩

/-- A value with an inverse, and zero, which has none. -/
theorem witness_InvIsMultiplicativeInverse :
    stA.Inv ∧ unaryMet stA [4, 0] 0 ⟨0, 78⟩ ctx97 ∧ Nat.gcd (logical ctx97 78) ctx97.p = 1 ∧
      unaryMet stA [6, 6] 6 ⟨0, 0⟩ ctx97 ∧ Nat.gcd (logical ctx97 0) ctx97.p ≠ 1 :=
  ⟨stA_inv, by decide⟩

theorem witness_MulByTwo : stA.Inv ∧ unaryMet stA [2, 0] 0 ⟨0, 78⟩ ctx97 :=
  ⟨stA_inv, by decide⟩

theorem witness_MulByThree : stA.Inv ∧ unaryMet stA [2, 0] 0 ⟨0, 78⟩ ctx97 :=
  ⟨stA_inv, by decide⟩

theorem witness_MulByFour : stA.Inv ∧ unaryMet stA [2, 0] 0 ⟨0, 78⟩ ctx97 :=
  ⟨stA_inv, by decide⟩

theorem witness_MulByEight : stA.Inv ∧ unaryMet stA [2, 0] 0 ⟨0, 78⟩ ctx97 :=
  ⟨stA_inv, by decide⟩

/-- With words of DOUT inside and above `p_words`, and `p_words` in 32 bits. -/
theorem witness_ValueExitsTheDomain :
    stA.Inv ∧ unaryMet stA [2] 2 ⟨0, 80⟩ ctx97 ∧ 0 < stA.cfg.nMax ∧ ctx97.pWords ≤ 3 ∧ 3 < stA.cfg.nMax ∧
      ctx97.pWords < 2 ^ 32 :=
  ⟨stA_inv, by decide⟩

/-- With bytes of BOUT inside and above `L`, and `L` in 32 bits. -/
theorem witness_SerializesBigEndian :
    stA.Inv ∧ unaryMet stA [2] 2 ⟨0, 80⟩ ctx97 ∧ 0 < (bitlen 97 + 7) / 8 ∧ (bitlen 97 + 7) / 8 ≤ 15 ∧
      15 < stA.cfg.bytesMax ∧
      (bitlen 97 + 7) / 8 < 2 ^ 32 :=
  ⟨stA_inv, by decide⟩

theorem witness_IsZeroTestsTheRepresentation : stA.Inv ∧ unaryMet stA [6] 6 ⟨0, 0⟩ ctx97 :=
  ⟨stA_inv, by decide⟩

theorem witness_IsOneTestsForR1 : stA.Inv ∧ unaryMet stA [5] 5 ⟨0, 35⟩ ctx97 :=
  ⟨stA_inv, by decide⟩

theorem witness_EqComparesRepresentations : stA.Inv ∧ binaryMet stA [0, 1] 0 1 ⟨0, 78⟩ ⟨0, 16⟩ ctx97 :=
  ⟨stA_inv, by decide⟩

theorem witness_NeIsTheComplementOfEq : stA.Inv ∧ binaryMet stA [0, 1] 0 1 ⟨0, 78⟩ ⟨0, 16⟩ ctx97 :=
  ⟨stA_inv, by decide⟩

theorem witness_EnterThenValueReturnsTheInteger :
    (loaded 0xFFFFFFFF stA).Inv ∧ (3 : Index).toNat < stA.cfg.nV ∧ (0 : Index).toNat < stA.cfg.nP ∧
      (loaded 0xFFFFFFFF stA).contextAt (0 : Index).toNat = some ctx97 ∧
        (loaded 0xFFFFFFFF stA).dinInt < ctx97.R stA.cfg.W := by decide

/-- Two registers, and the result in a third, or over the value itself. -/
theorem witness_ValueTimesInverseIsOne :
    stA.Inv ∧ unaryMet stA [0, 4, 5] 0 ⟨0, 78⟩ ctx97 ∧ inRange stA [0, 4, 0] ∧ (0 : Index) ≠ 4 ∧
      Nat.gcd 78 ctx97.p = 1 :=
  ⟨stA_inv, by decide⟩

/-- One success for each of the six commands, all from states that meet the invariant. -/
theorem witness_RedcArgumentsOfCommandsAreInDomain :
    (loaded 0xFFFFFFFF stA).Inv ∧
      (loaded 0xFFFFFFFF stA).contextAt (0 : Index).toNat = some ctx97 ∧
      (∃ t, exec (.vnew 3 0 true) (loaded 0xFFFFFFFF stA) = .next t ∧ (t.err == 0) = true) ∧
      stA.Inv ∧ binaryMet stA [2, 0, 1] 0 1 ⟨0, 78⟩ ⟨0, 16⟩ ctx97 ∧
      (∃ t, exec (.mul 2 0 1) stA = .next t ∧ (t.err == 0) = true) ∧
      (∃ t, exec (.sqr 2 0) stA = .next t ∧ (t.err == 0) = true) ∧
      (∃ t, exec (.inv 2 0) stA = .next t ∧ (t.err == 0) = true) ∧
      (∃ t, exec (.value 0) stA = .next t ∧ (t.err == 0) = true) ∧
      ∃ t, exec (.ser 0) stA = .next t ∧ (t.err == 0) = true :=
  ⟨by decide, by decide, next_of_answer (by decide), stA_inv, by decide, next_of_answer (by decide),
    next_of_answer (by decide), next_of_answer (by decide), next_of_answer (by decide), next_of_answer (by decide)⟩

end Sys2Proof.Tests
end

section
/-! PROOFS. Family 00_scope.md: who writes each element of the state (O23), and `inv_mod` (O29). -/

namespace Sys2Proof.Machine

open Sys2Proof.Claims

/-! ## What a step can do, said once -/

section steps
variable {s t u : State} {i : Instr}

/-- A step waits (R196), or is the oldest pending transaction (R51). -/
theorem step_cases (h : step s = .next t) :
    (s.pending = [] ∧ t = s) ∨
      ∃ tx rest, s.pending = tx :: rest ∧ transact tx { s with pending := rest } = .next t := by
  unfold step nextTransaction at h
  split at h
  · rename_i hp
    cases h
    exact .inl ⟨hp, rfl⟩
  · rename_i tx rest hp
    exact .inr ⟨tx, rest, hp, h⟩

/-- A transaction that completes writes a word of DIN, issues a command, reads, or resets (R51). -/
theorem transact_cases {tx : Transaction} (h : transact tx s = .next t) :
    (∃ i w, tx = .hostWriteDIN i w ∧ i < s.cfg.nMax ∧ w < 2 ^ s.cfg.W ∧ t = s.setDin i w) ∨
      (∃ c, tx = .hostIssue c ∧ hostIssue c s = .next t) ∨
        (∃ x, t = s.reply x) ∨ (tx = .hostReset ∧ t = hostReset s) := by
  cases tx with
  | hostWriteDIN i w =>
    simp only [transact, hostWriteDin] at h
    split at h
    · rename_i hi
      split at h
      · rename_i hw
        cases h
        exact .inl ⟨i, w, rfl, hi, hw, rfl⟩
      · cases h
    · cases h
  | hostIssue c => exact .inr (.inl ⟨c, rfl, h⟩)
  | hostReadDOUT i =>
    simp only [transact, hostReadDout] at h
    split at h <;> cases h
    exact .inr (.inr (.inl ⟨_, rfl⟩))
  | hostReadBOUT j =>
    simp only [transact, hostReadBout] at h
    split at h <;> cases h
    exact .inr (.inr (.inl ⟨_, rfl⟩))
  | hostReadSTATUS | hostReadERRLOG | hostReadDLEN | hostReadBLEN =>
    cases h
    exact .inr (.inr (.inl ⟨_, rfl⟩))
  | hostReset =>
    cases h
    exact .inr (.inr (.inr ⟨rfl, rfl⟩))
  | wrongDirection port => cases h

/-- An issued word fails, or decodes to a command that has its effect (R78). -/
theorem hostIssue_cases {c : Word32} (h : hostIssue c s = .next t) :
    (∃ e, t = s.fail e) ∨ ∃ i u, decode c = .ok i ∧ Effect s i u ∧ t = u.succeed := by
  unfold hostIssue at h
  split at h
  · rename_i i hd
    rcases exec_effect_or_fails i s with ⟨e, he⟩ | ⟨u, hu, he⟩ <;> cases h.symm.trans he
    · exact .inl ⟨e, rfl⟩
    · exact .inr ⟨i, u, hd, hu, rfl⟩
  · cases h
    exact .inl ⟨_, rfl⟩

/-- What a command writes when it succeeds is its destination register, its context (PSETUP), DOUT with DLEN (VALUE),
BOUT with BLEN (SER), or T (a test), and nothing else. -/
theorem Effect.writes (h : Effect s i u) :
    (∃ vd o, destination i = some vd ∧ u = s.setValue vd.toNat o) ∨
      (∃ ctx k, i = .psetup ctx ∧ u = s.setContext ctx.toNat k) ∨
        (∃ va x n, i = .value va ∧ u = s.setDout x n) ∨
          (∃ va x L, i = .ser va ∧ u = s.setBout x L) ∨ (isTest i = true ∧ ∃ b, u = s.setT b) := by
  cases h with
  | vnewEnter | vnewRaw | vfree | fixsz | add | sub | mul | sqr | inv | neg | mul2 | mul3 | mul4 | mul8 =>
    exact .inl ⟨_, _, rfl, rfl⟩
  | psetup => exact .inr (.inl ⟨_, _, rfl, rfl⟩)
  | value => exact .inr (.inr (.inl ⟨_, _, _, rfl, rfl⟩))
  | ser => exact .inr (.inr (.inr (.inl ⟨_, _, _, rfl, rfl⟩)))
  | iszero | isone | eq | ne => exact .inr (.inr (.inr (.inr ⟨rfl, _, rfl⟩)))

end steps

/-! ## The obligations -/

/-- Settles O23: each kind of step, and of a command's results, writes the elements of its own writer only. -/
theorem eachBufferHasOneWriter : Obligations.EachBufferHasOneWriter := by
  unfold Obligations.EachBufferHasOneWriter
  intro s t h
  obtain ⟨-, rfl⟩ | ⟨tx, rest, hp, ht⟩ := step_cases h
  · simp
  · obtain ⟨i, w, rfl, -, -, rfl⟩ | ⟨c, rfl, hc⟩ | ⟨x, rfl⟩ | ⟨rfl, rfl⟩ := transact_cases ht
    · simp [hp]
    · obtain ⟨e, rfl⟩ | ⟨i, u, hd, hu, rfl⟩ := hostIssue_cases hc
      · simp [hp]
      · obtain ⟨vd, o, -, rfl⟩ | ⟨ctx, k, -, rfl⟩ | ⟨va, x, n, rfl, rfl⟩ | ⟨va, x, L, rfl, rfl⟩ | ⟨hi, b, rfl⟩ :=
          hu.writes
        · simp [hp]
        · simp [hp]
        · simp [hp, hd]
        · simp [hp, hd]
        · simp [hp, hd, hi]
    · simp
    · simp [hp]

/-- Settles O29: Euclid's cofactor inverts `x`, is not 0 because 0 inverts nothing modulo `m > 1`, and a unit can be
cancelled. -/
theorem invModIsTheUniqueInverse : Obligations.InvModIsTheUniqueInverse := by
  unfold Obligations.InvModIsTheUniqueInverse
  intro x m hm hg
  have hlt : invMod x m < m := (invMod_spec hm).1
  have hinv : x * invMod x m % m = 1 := mul_invMod hm hg
  have hne : invMod x m ≠ 0 := fun h0 => by simp [h0] at hinv
  exact ⟨⟨Nat.pos_of_ne_zero hne, hlt, hinv⟩,
    fun y hy hxy => eq_of_mul_mod_eq hg hy hlt (hxy.trans hinv.symm)⟩

end Sys2Proof.Machine
end

section
/-! PROOFS. Family 10_state.md: the machine's invariant (O18, O19) and what follows from it (O17, O20, O21, O34), who
may change a context (O22), the frames of the commands (O24, O25, O26), their independence of what only the host reads
(O27), reset (O10) and STATUS (O12). -/

namespace Sys2Proof.Machine

open Sys2Proof.Claims

/-! ## Valid contexts (R22, R101, R111) -/

section contexts
variable {k : Config} {c : Context} {x : Nat}

theorem Context.Valid.lt_R (h : Context.Valid k c) (hk : k.wf) : c.p < c.R k.W := by
  obtain ⟨-, hn, -⟩ := h
  rw [Context.R, hn]
  exact lt_rOf hk.1

theorem Context.Valid.one_lt (h : Context.Valid k c) : 1 < c.p := by
  obtain ⟨⟨-, h1, -⟩, -⟩ := h
  exact h1

theorem Context.Valid.p_pos (h : Context.Valid k c) : 0 < c.p := Nat.zero_lt_of_lt h.one_lt

theorem Context.Valid.R2_lt (h : Context.Valid k c) : c.R2 < c.p := by
  have hpos := h.p_pos
  obtain ⟨-, -, -, -, hR2, -⟩ := h
  rw [hR2]
  exact Nat.mod_lt _ hpos

theorem Context.Valid.gcd_R (h : Context.Valid k c) : Nat.gcd (c.R k.W) c.p = 1 := by
  obtain ⟨⟨hodd, -⟩, -⟩ := h
  rw [Nat.gcd_comm]
  exact odd_gcd_two_pow hodd _

/-- Two canonical factors give `redc` an argument it reduces (R112). -/
theorem Context.Valid.mul_lt (h : Context.Valid k c) (hk : k.wf) {a b : Nat} (ha : a < c.p) (hb : b < c.p) :
    a * b < c.R k.W * c.p :=
  Nat.mul_lt_mul'' (ha.trans (h.lt_R hk)) hb

/-- The accumulator after `p_words` passes needs at most one subtraction of `p` (R111). -/
theorem Context.Valid.redcLoop_lt (h : Context.Valid k c) (hx : x < c.R k.W * c.p) :
    redcLoop k.W c.p c.pDash c.pWords x < 2 * c.p := by
  obtain ⟨-, -, ⟨-, hd⟩, -⟩ := h
  obtain ⟨M, hM, he⟩ := redcLoop_mul hd c.pWords x
  have hMp : M * c.p ≤ c.R k.W * c.p := Nat.mul_le_mul_right _ hM.le
  refine Nat.lt_of_mul_lt_mul_right (a := c.R k.W) ?_
  calc redcLoop k.W c.p c.pDash c.pWords x * c.R k.W = x + M * c.p := he
    _ < 2 * c.p * c.R k.W := by linarith

theorem Context.Valid.redc_lt (h : Context.Valid k c) (hx : x < c.R k.W * c.p) : c.redc k.W x < c.p :=
  subtractOnce_lt (h.redcLoop_lt hx)

theorem Context.Valid.enter_lt (h : Context.Valid k c) (hx : x < c.R k.W) : c.enter k.W x < c.p :=
  h.redc_lt (Nat.mul_lt_mul'' hx h.R2_lt)

/-- PSETUP constructs a valid context (R100 to R103). -/
theorem Context.ofModulus_valid {p : Nat} (hk : k.wf) (hodd : p % 2 = 1) (h1 : 1 < p) (hlim : p < k.limit) :
    Context.Valid k (Context.ofModulus k.W p) := by
  obtain ⟨hd, he⟩ := pdash_spec hk.1 hodd
  refine ⟨⟨hodd, h1, hlim⟩, rfl, ⟨hd, (mul_mod_add_one (Nat.two_pow_pos _)).1 he⟩, ?_, rfl, rfl⟩
  simp [Context.ofModulus, rPow, rOf, Context.R]

/-- The serialization of a value fits BOUT (R7, R161). -/
theorem Context.Valid.bytes_le (h : Context.Valid k c) : ceilDiv (bitlen c.p) 8 ≤ k.bytesMax := by
  obtain ⟨⟨-, -, hlim⟩, -⟩ := h
  have hbits : bitlen c.p ≤ k.nMax * k.W := bitlen_le_iff.2 hlim
  rw [ceilDiv_le_iff (by omega), Config.bytesMax]
  omega

end contexts

/-- Settles O20: `p` needs exactly `p_words` words, and an odd number is prime to a power of 2. -/
theorem validContextBounds : Obligations.ValidContextBounds := by
  unfold Obligations.ValidContextBounds
  intro k c hk h
  have hpos := h.p_pos
  have hR := h.lt_R hk
  have hg := h.gcd_R
  obtain ⟨⟨-, -, hlim⟩, hn, -, h1, h2, h3⟩ := h
  have hn1 : 1 ≤ c.pWords := hn ▸ pwords_pos hpos hk.1
  have hlow : 2 ^ ((c.pWords - 1) * k.W) ≤ c.p := by
    by_contra hlt
    have := (pwords_le_iff hk.1).2 (Nat.lt_of_not_le hlt)
    omega
  have hmax : c.pWords ≤ k.nMax := hn ▸ (pwords_le_iff hk.1).2 hlim
  exact ⟨hlow, hR, hg, h1 ▸ Nat.mod_lt _ hpos, h2 ▸ Nat.mod_lt _ hpos, h3 ▸ Nat.mod_lt _ hpos, hn1, hmax⟩

/-- Settles O34: `R1` is `R` modulo `p`, so `inv_mod(R1, p)` cancels `R` on either side. -/
theorem representationIsABijection : Obligations.RepresentationIsABijection := by
  unfold Obligations.RepresentationIsABijection
  intro k c hk h
  have hpos := h.p_pos
  have hp1 := h.one_lt
  have hg := h.gcd_R
  obtain ⟨-, -, -, h1, -⟩ := h
  have hg1 : Nat.gcd c.R1 c.p = 1 := by rw [h1, ← Nat.gcd_rec, Nat.gcd_comm, hg]
  have hinv : c.R k.W * invMod c.R1 c.p ≡ 1 [MOD c.p] := by
    have hR : c.R k.W ≡ c.R1 [MOD c.p] := h1 ▸ (Nat.mod_modEq _ _).symm
    have h1' : c.R1 * invMod c.R1 c.p ≡ 1 [MOD c.p] := by
      rw [Nat.ModEq, mul_invMod hp1 hg1, Nat.mod_eq_of_lt hp1]
    exact (hR.mul_right _).trans h1'
  have back (x : Nat) : x * (c.R k.W * invMod c.R1 c.p) ≡ x [MOD c.p] := by simpa using hinv.mul_left x
  refine ⟨fun x hx => ?_, fun v hv => ⟨Nat.mod_lt _ hpos, ?_⟩⟩
  · refine Nat.ModEq.eq_of_lt_of_lt ?_ (Nat.mod_lt _ hpos) hx
    calc logical c (x * c.R k.W % c.p) ≡ x * c.R k.W * invMod c.R1 c.p [MOD c.p] :=
          (Nat.mod_modEq _ _).trans ((Nat.mod_modEq _ _).mul_right _)
      _ = x * (c.R k.W * invMod c.R1 c.p) := Nat.mul_assoc _ _ _
      _ ≡ x [MOD c.p] := back x
  · refine Nat.ModEq.eq_of_lt_of_lt ?_ (Nat.mod_lt _ hpos) hv
    calc logical c v * c.R k.W % c.p ≡ v * invMod c.R1 c.p * c.R k.W [MOD c.p] :=
          (Nat.mod_modEq _ _).trans ((Nat.mod_modEq _ _).mul_right _)
      _ = v * (c.R k.W * invMod c.R1 c.p) := by ring
      _ ≡ v [MOD c.p] := back v

/-! ## Lookups, and canonical results (R25, R140 to R142, R150) -/

section lookups
variable {s : State}

theorem State.contextAt_mem {c : Nat} {k : Context} (h : s.contextAt c = some k) : some k ∈ s.contexts :=
  List.mem_of_getElem? (Option.join_eq_some_iff.1 h)

theorem State.valueAt_mem {i : Nat} {a : Value} (h : s.valueAt i = some a) : some a ∈ s.values :=
  List.mem_of_getElem? (Option.join_eq_some_iff.1 h)

theorem State.Inv.wf (h : s.Inv) : s.cfg.wf := by
  obtain ⟨hwf, -⟩ := h
  exact hwf

theorem State.Inv.context_valid (h : s.Inv) {c : Nat} {k : Context} (hc : s.contextAt c = some k) :
    Context.Valid s.cfg k := by
  obtain ⟨-, -, hctx, -⟩ := h
  exact hctx _ (State.contextAt_mem hc) _ rfl

theorem State.Inv.holds (h : s.Inv) {i : Nat} {a : Value} (ha : s.valueAt i = some a) : s.Holds a := by
  obtain ⟨-, -, -, hval, -⟩ := h
  exact hval _ (State.valueAt_mem ha) _ rfl

/-- What a valid register holds is canonical under its context (R25). -/
theorem State.Inv.value_lt (h : s.Inv) {i : Nat} {a : Value} {k : Context} (ha : s.valueAt i = some a)
    (hc : s.contextAt a.ctx = some k) : a.v < k.p := by
  obtain ⟨k', hk', hlt⟩ := h.holds ha
  cases hc.symm.trans hk'
  exact hlt

end lookups

theorem modAdd_lt {p a b : Nat} (ha : a < p) (hb : b < p) : modAdd p a b < p := subtractOnce_lt (by omega)

theorem modSub_lt {p a b : Nat} (ha : a < p) (hb : b < p) : modSub p a b < p := by
  unfold modSub; split <;> omega

theorem modNeg_lt {p a : Nat} (ha : a < p) : modNeg p a < p := by
  unfold modNeg; split <;> omega

/-- Settles O21: the value is below `p`, and `p` below `2^(p_words*W)`. -/
theorem valuesFitTheirWords : Obligations.ValuesFitTheirWords := by
  unfold Obligations.ValuesFitTheirWords
  intro s i a c h ha hc j hj
  have hlt : a.v < c.R s.cfg.W := (h.value_lt ha hc).trans ((h.context_valid hc).lt_R h.wf)
  have hle : c.R s.cfg.W ≤ 2 ^ (s.cfg.W * j) := by
    rw [Nat.mul_comm]
    exact Nat.pow_le_pow_right (by omega) (Nat.mul_le_mul_right _ hj)
  rw [wordOf, Nat.div_eq_of_lt (hlt.trans_le hle), Nat.zero_mod]

/-! ## Error codes and ERRLOG's bits (R31, R32, R180) -/

theorem ErrorCode.code_le (e : ErrorCode) : 1 ≤ e.code ∧ e.code ≤ 8 := by cases e <;> decide

/-- A code fits ERR's 8 bits. -/
@[simp] theorem ErrorCode.code_mod (e : ErrorCode) : e.code % 256 = e.code :=
  Nat.mod_eq_of_lt (by have := e.code_le; omega)

/-- A failure never leaves 0 in ERR (R180). -/
@[simp] theorem ErrorCode.ofNat_code_ne_zero (e : ErrorCode) : BitVec.ofNat 8 e.code ≠ 0#8 := by cases e <;> decide

@[simp] theorem ErrorCode.getLsbD_bit (e : ErrorCode) (b : Nat) : e.bit.getLsbD b = decide (b = e.code) := by
  have hc : e.code < 32 := by have := e.code_le; omega
  rw [ErrorCode.bit, BitVec.getLsbD_ofNat, Nat.testBit_two_pow]
  by_cases h : b = e.code
  · subst h; simp [hc]
  · simp [h, Ne.symm h]

/-- ERRLOG uses bits 1 to 8 only, said bit by bit (R32). -/
theorem errlog_bits_iff {w : Word32} : w &&& 0x1FE = w ↔ ∀ b, w.getLsbD b = true → 1 ≤ b ∧ b ≤ 8 := by
  have hmask : ∀ b < 32, (0x1FE : Word32).getLsbD b = decide (1 ≤ b ∧ b ≤ 8) := by decide
  constructor
  · intro h b hb
    have hlt := BitVec.lt_of_getLsbD hb
    rw [← h, BitVec.getLsbD_and, hmask b hlt, Bool.and_eq_true, decide_eq_true_iff] at hb
    exact hb.2
  · intro h
    refine BitVec.eq_of_getLsbD_eq fun b hlt => ?_
    rw [BitVec.getLsbD_and, hmask b hlt]
    cases hb : w.getLsbD b
    · rfl
    · simpa using h b hb

theorem State.ErrorsOk.fail {s : State} (h : s.ErrorsOk) (e : ErrorCode) : (s.fail e).ErrorsOk := by
  obtain ⟨-, hbits, -⟩ := h
  have hc := e.code_le
  refine ⟨by simpa using hc.2, errlog_bits_iff.2 fun b hb => ?_, fun _ => by simp⟩
  rw [State.fail_errlog, BitVec.getLsbD_or, Bool.or_eq_true, e.getLsbD_bit, decide_eq_true_iff] at hb
  obtain hb | rfl := hb
  · exact errlog_bits_iff.1 hbits b hb
  · exact hc

theorem State.ErrorsOk.succeed {s : State} (h : s.ErrorsOk) : s.succeed.ErrorsOk := by
  obtain ⟨-, hbits, -⟩ := h
  exact ⟨Nat.zero_le _, hbits, fun h0 => absurd rfl h0⟩

/-! ## What keeps the invariant: each update, each command, each step -/

section updates
variable {s : State}

theorem State.Inv.fail (h : s.Inv) (e : ErrorCode) : (s.fail e).Inv := by
  obtain ⟨hwf, hshape, hctx, hval, herr⟩ := h
  exact ⟨hwf, hshape, hctx, hval, herr.fail e⟩

theorem State.Inv.succeed (h : s.Inv) : s.succeed.Inv := by
  obtain ⟨hwf, hshape, hctx, hval, herr⟩ := h
  exact ⟨hwf, hshape, hctx, hval, herr.succeed⟩

/-- A write of a canonical value, or a VFREE, keeps R25. -/
theorem State.Inv.setValue (h : s.Inv) {i : Nat} {o : Option Value} (ho : ∀ a ∈ o, s.Holds a) :
    (s.setValue i o).Inv := by
  obtain ⟨hwf, ⟨⟨hc, hv⟩, hbuf⟩, hctx, hval, herr⟩ := h
  refine ⟨hwf, ⟨⟨hc, by simpa using hv⟩, hbuf⟩, hctx, fun o' ho' => ?_, herr⟩
  obtain ho' | rfl := List.mem_or_eq_of_mem_set ho'
  · exact hval o' ho'
  · exact ho

theorem State.Inv.setValue_holds (h : s.Inv) {i : Nat} {a : Value} (ha : s.Holds a) : (s.setValue i (some a)).Inv :=
  h.setValue fun _ hb => by cases hb; exact ha

theorem State.Inv.setValue_some (h : s.Inv) {i c v : Nat} {k : Context} (hc : s.contextAt c = some k) (hv : v < k.p) :
    (s.setValue i (some ⟨c, v⟩)).Inv :=
  h.setValue_holds ⟨k, hc, hv⟩

theorem State.not_referenced {c : Nat} (h : s.referenced c = false) {a : Value} (ha : some a ∈ s.values) :
    a.ctx ≠ c := by
  simpa using List.any_eq_false.1 h _ ha

/-- Constructing a valid context that no value references keeps R22, and R25 for every value (R23). -/
theorem State.Inv.setContext (h : s.Inv) {c : Nat} {k : Context} (hfree : s.referenced c = false)
    (hk : Context.Valid s.cfg k) : (s.setContext c k).Inv := by
  obtain ⟨hwf, ⟨⟨hc, hv⟩, hbuf⟩, hctx, hval, herr⟩ := h
  refine ⟨hwf, ⟨⟨by simpa using hc, hv⟩, hbuf⟩, fun o ho => ?_, fun o ho a ha => ?_, herr⟩
  · obtain ho | rfl := List.mem_or_eq_of_mem_set ho
    · exact hctx o ho
    · intro k' hk'; cases hk'; exact hk
  · cases ha
    have hne : c ≠ a.ctx := (State.not_referenced hfree ho).symm
    rw [State.Holds, State.contextAt_setContext_other s hne]
    exact hval _ ho a rfl

theorem State.Inv.setDin (h : s.Inv) {i w : Nat} (hw : w < 2 ^ s.cfg.W) : (s.setDin i w).Inv := by
  obtain ⟨hwf, ⟨hlen, ⟨hdin, hout⟩, hws, hos⟩, hctx, hval, herr⟩ := h
  refine ⟨hwf, ⟨hlen, ⟨by simpa using hdin, hout⟩, fun x hx => ?_, hos⟩, hctx, hval, herr⟩
  obtain hx | rfl := List.mem_or_eq_of_mem_set hx
  · exact hws x hx
  · exact hw

theorem State.Inv.setDout (h : s.Inv) (x n : Nat) : (s.setDout x n).Inv := by
  obtain ⟨hwf, ⟨hlen, ⟨hdin, -, hbout⟩, hws, -⟩, hctx, hval, herr⟩ := h
  exact ⟨hwf, ⟨hlen, ⟨hdin, wordsOf_length _ _ _, hbout⟩, hws, fun _ => wordsOf_lt⟩, hctx, hval, herr⟩

theorem State.Inv.setBout (h : s.Inv) (x : Nat) {L : Nat} (hL : L ≤ s.cfg.bytesMax) : (s.setBout x L).Inv := by
  obtain ⟨hwf, ⟨hlen, ⟨hdin, hdout, -⟩, hwords⟩, hctx, hval, herr⟩ := h
  exact ⟨hwf, ⟨hlen, ⟨hdin, hdout, by simp; omega⟩, hwords⟩, hctx, hval, herr⟩

theorem State.Inv.setT (h : s.Inv) (b : Bool) : (s.setT b).Inv := h

theorem State.Inv.reply (h : s.Inv) (x : Nat) : (s.reply x).Inv := h

/-- `Int(DIN)` is below LIMIT (R7, R11). -/
theorem State.Inv.dinInt_lt (h : s.Inv) : s.dinInt < s.cfg.limit := by
  obtain ⟨-, ⟨-, ⟨hdin, -⟩, hws, -⟩, -⟩ := h
  have := intOf_lt hws
  rwa [hdin] at this

end updates

theorem State.resetOf_inv {k : Config} (hk : k.wf) : (State.resetOf k).Inv := by
  have hwords : ∀ w ∈ List.replicate k.nMax 0, w < 2 ^ k.W := fun w hw => by
    rw [List.eq_of_mem_replicate hw]
    exact Nat.two_pow_pos _
  refine ⟨hk, ⟨⟨List.length_replicate, List.length_replicate⟩,
    ⟨List.length_replicate, List.length_replicate, List.length_replicate⟩, hwords, hwords⟩,
    fun o ho c hc => ?_, fun o ho a ha => ?_, Nat.zero_le _, BitVec.zero_and, fun h0 => absurd rfl h0⟩
  · cases List.eq_of_mem_replicate ho
    cases hc
  · cases List.eq_of_mem_replicate ho
    cases ha

/-- Settles O19: every register file is invalid, every word 0, and no error is recorded. -/
theorem resetMeetsInvariant : Obligations.ResetMeetsInvariant :=
  ⟨fun _ => State.resetOf_inv, State.resetOf_inv (by decide)⟩

section commands
variable {s t u : State} {i : Instr}

/-- The results of a command leave ERRLOG (R190). -/
theorem Effect.errlog_eq (h : Effect s i u) : u.errlog = s.errlog := by
  obtain ⟨vd, o, -, rfl⟩ | ⟨ctx, k, -, rfl⟩ | ⟨va, x, n, -, rfl⟩ | ⟨va, x, L, -, rfl⟩ | ⟨-, b, rfl⟩ := h.writes <;> rfl

/-- What a command of two sources reads: two canonical values of one context. -/
theorem State.Inv.operands_RRR (h : s.Inv) {vd va vb : Index} {a b : Value} {k : Context}
    (ops : formatRRR s vd va vb = .ok (a, b)) (valid : s.contextAt a.ctx = some k) : a.v < k.p ∧ b.v < k.p := by
  obtain ⟨-, ha, hb, hab⟩ := formatRRR_ok_iff.1 ops
  exact ⟨h.value_lt ha valid, h.value_lt hb (hab ▸ valid)⟩

theorem State.Inv.operand_RR (h : s.Inv) {vd va : Index} {a : Value} {k : Context}
    (ops : formatRR s vd va = .ok a) (valid : s.contextAt a.ctx = some k) : a.v < k.p :=
  h.value_lt (formatRR_ok_iff.1 ops).2 valid

/-- The results of a command keep the invariant: a written value is canonical, a constructed context is valid and
unreferenced, a serialization fits. -/
theorem Effect.keeps_inv (hu : Effect s i u) (h : s.Inv) : u.Inv := by
  have hwf := h.wf
  cases hu with
  | psetup ctx range free odd large =>
    exact h.setContext free (Context.ofModulus_valid hwf odd large h.dinInt_lt)
  | vnewEnter vd ctx k range crange valid small =>
    exact h.setValue_some valid ((h.context_valid valid).enter_lt small)
  | vnewRaw vd ctx k range crange valid small => exact h.setValue_some valid small
  | vfree => exact h.setValue (by simp)
  | fixsz vd a range source => exact h.setValue_holds (h.holds source)
  | add vd va vb a b k ops valid =>
    obtain ⟨ha, hb⟩ := h.operands_RRR ops valid
    exact h.setValue_some valid (modAdd_lt ha hb)
  | sub vd va vb a b k ops valid =>
    obtain ⟨ha, hb⟩ := h.operands_RRR ops valid
    exact h.setValue_some valid (modSub_lt ha hb)
  | mul vd va vb a b k ops valid =>
    obtain ⟨ha, hb⟩ := h.operands_RRR ops valid
    have hk := h.context_valid valid
    exact h.setValue_some valid (hk.redc_lt (hk.mul_lt hwf ha hb))
  | sqr vd va a k ops valid =>
    have ha := h.operand_RR ops valid
    have hk := h.context_valid valid
    exact h.setValue_some valid (hk.redc_lt (hk.mul_lt hwf ha ha))
  | inv vd va a k ops valid coprime =>
    have hk := h.context_valid valid
    have hinv := (invMod_spec (x := k.redc s.cfg.W a.v) hk.one_lt).1
    exact h.setValue_some valid (hk.enter_lt (hinv.trans (hk.lt_R hwf)))
  | neg vd va a k ops valid => exact h.setValue_some valid (modNeg_lt (h.operand_RR ops valid))
  | mul2 vd va a k ops valid | mul3 vd va a k ops valid | mul4 vd va a k ops valid | mul8 vd va a k ops valid =>
    exact h.setValue_some valid (Nat.mod_lt _ (h.context_valid valid).p_pos)
  | value => exact h.setDout _ _
  | ser va a k ops valid => exact h.setBout _ (h.context_valid valid).bytes_le
  | iszero | isone | eq | ne => exact h.setT _

theorem hostIssue_keeps_inv {c : Word32} (h : s.Inv) (hc : hostIssue c s = .next t) : t.Inv := by
  obtain ⟨e, rfl⟩ | ⟨i, u, -, hu, rfl⟩ := hostIssue_cases hc
  · exact h.fail e
  · exact (hu.keeps_inv h).succeed

end commands

/-- Settles O18: each kind of transaction keeps the invariant. -/
theorem everyStepKeepsInvariant : Obligations.EveryStepKeepsInvariant := by
  unfold Obligations.EveryStepKeepsInvariant
  intro s t h hs
  obtain ⟨-, rfl⟩ | ⟨tx, rest, hp, ht⟩ := step_cases hs
  · exact h
  · have h' : State.Inv { s with pending := rest } := h
    obtain ⟨i, w, -, -, hw, rfl⟩ | ⟨c, -, hc⟩ | ⟨x, rfl⟩ | ⟨-, rfl⟩ := transact_cases ht
    · exact h'.setDin hw
    · exact hostIssue_keeps_inv h' hc
    · exact h'.reply x
    · exact State.resetOf_inv h.wf

theorem step_hostReset {s : State} {rest : List Transaction} (hp : s.pending = .hostReset :: rest) :
    step s = .next (hostReset { s with pending := rest }) := by
  simp [step, nextTransaction, transact, hp]

/-- What a step can do to ERRLOG: clear it (HostReset), leave it, or set the bit of the code an issued command ends
with (R32). -/
theorem step_errlog {s t : State} (h : step s = .next t) :
    (s.pending.head? = some .hostReset ∧ t.errlog = 0) ∨ t.errlog = s.errlog ∨
      ∃ c e, s.pending.head? = some (.hostIssue c) ∧ t.err.toNat = e.code ∧
        t.errlog = s.errlog ||| ErrorCode.bit e := by
  obtain ⟨-, rfl⟩ | ⟨tx, rest, hp, ht⟩ := step_cases h
  · exact .inr (.inl rfl)
  · obtain ⟨i, w, -, -, -, rfl⟩ | ⟨c, rfl, hc⟩ | ⟨x, rfl⟩ | ⟨rfl, rfl⟩ := transact_cases ht
    · exact .inr (.inl rfl)
    · obtain ⟨e, rfl⟩ | ⟨i, u, -, hu, rfl⟩ := hostIssue_cases hc
      · exact .inr (.inr ⟨c, e, by simp [hp], by simp, rfl⟩)
      · exact .inr (.inl hu.errlog_eq)
    · exact .inr (.inl rfl)
    · exact .inl ⟨by simp [hp], rfl⟩

/-- Settles O17: by what a step can do to ERRLOG; the range of its bits, and the bit of the code in ERR, are the
invariant's. -/
theorem errorLogIsSticky : Obligations.ErrorLogIsSticky := by
  unfold Obligations.ErrorLogIsSticky
  intro s t h hs
  obtain ⟨-, -, -, -, -, hbits, hown⟩ := everyStepKeepsInvariant s t h hs
  have hclear : s.pending.head? = some .hostReset → t.errlog = 0 := fun hr => by
    obtain ⟨rest, hp⟩ := List.head?_eq_some_iff.1 hr
    cases hs.symm.trans (step_hostReset hp)
    rfl
  suffices hstep : (s.pending.head? ≠ some .hostReset → ∀ b, s.errlog.getLsbD b = true → t.errlog.getLsbD b = true) ∧
      ∀ b, t.errlog.getLsbD b = true → s.errlog.getLsbD b = false →
        b = t.err.toNat ∧ ∃ c, s.pending.head? = some (.hostIssue c) from
    ⟨hstep.1, hclear, hstep.2, errlog_bits_iff.1 hbits, hown, fun _ => rfl⟩
  obtain ⟨hr, h0⟩ | he | ⟨c, e, hc, hcode, hlog⟩ := step_errlog hs
  · simp [hr, h0]
  · simp +contextual [he]
  · refine ⟨fun _ b hb => by simp [hlog, hb], fun b hb hnew => ⟨?_, c, hc⟩⟩
    simpa [hlog, hnew, hcode] using hb

/-! ## Contexts (R23) -/

theorem Effect.setup_free {s u : State} {ctx : Index} (hu : Effect s (.psetup ctx) u) :
    s.referenced ctx.toNat = false := by
  cases hu with
  | psetup _ _ free => exact free

/-- A command that changes a context is PSETUP naming it, and no value references it. -/
theorem Effect.setup_of_contextAt_ne {s u : State} {i : Instr} {c : Nat} (hu : Effect s i u)
    (hne : u.contextAt c ≠ s.contextAt c) : s.referenced c = false ∧ ∃ ctx, i = .psetup ctx ∧ ctx.toNat = c := by
  obtain ⟨vd, o, -, rfl⟩ | ⟨ctx, k, rfl, rfl⟩ | ⟨va, x, n, -, rfl⟩ | ⟨va, x, L, -, rfl⟩ | ⟨-, b, rfl⟩ := hu.writes
  · exact absurd rfl hne
  · have hc : ctx.toNat = c := by
      by_contra hother
      exact hne (State.contextAt_setContext_other s hother k)
    exact ⟨hc ▸ hu.setup_free, ctx, rfl, hc⟩
  · exact absurd rfl hne
  · exact absurd rfl hne
  · exact absurd rfl hne

/-- Settles O22: only an issued command that succeeds writes a context, and then as `Effect` says. -/
theorem contextsChangeOnlyBySetup : Obligations.ContextsChangeOnlyBySetup := by
  unfold Obligations.ContextsChangeOnlyBySetup
  intro s t c hs hr hne
  obtain ⟨-, rfl⟩ | ⟨tx, rest, hp, ht⟩ := step_cases hs
  · exact absurd rfl hne
  · obtain ⟨i, w, -, -, -, rfl⟩ | ⟨w, rfl, hw⟩ | ⟨x, rfl⟩ | ⟨rfl, rfl⟩ := transact_cases ht
    · exact absurd rfl hne
    · obtain ⟨e, rfl⟩ | ⟨i, u, hd, hu, rfl⟩ := hostIssue_cases hw
      · exact absurd rfl hne
      · obtain ⟨hfree, ctx, rfl, hctx⟩ := hu.setup_of_contextAt_ne hne
        exact ⟨hfree, w, ctx, by simp [hp], hd, hctx⟩
    · exact absurd rfl hne
    · exact absurd (by simp [hp]) hr

/-! ## Frames (R20, R30) -/

/-- A command that ends fails, or has its effect (R78). -/
theorem exec_cases {s t : State} {i : Instr} (h : exec i s = .next t) :
    (∃ e, t = s.fail e) ∨ ∃ u, Effect s i u ∧ t = u.succeed := by
  obtain ⟨e, he⟩ | ⟨u, hu, he⟩ := exec_effect_or_fails i s <;> cases h.symm.trans he
  · exact .inl ⟨e, rfl⟩
  · exact .inr ⟨u, hu, rfl⟩

theorem destination_of_isTest {i : Instr} (h : isTest i = true) : destination i = none := by
  cases i with
  | iszero | isone | eq | ne => rfl
  | _ => cases h

/-- Settles O24: a failure writes ERR and ERRLOG, a success the destination and ERR. -/
theorem registerWritersFrame : Obligations.RegisterWritersFrame := by
  unfold Obligations.RegisterWritersFrame
  intro s t i vd hi h
  obtain ⟨e, rfl⟩ | ⟨u, hu, rfl⟩ := exec_cases h
  · simp [State.valueAt]
  · obtain ⟨vd', o, hi', rfl⟩ | ⟨ctx, k, rfl, -⟩ | ⟨va, x, n, rfl, -⟩ | ⟨va, x, L, rfl, -⟩ | ⟨htest, -⟩ := hu.writes
    · cases hi.symm.trans hi'
      refine ⟨fun j hj => State.valueAt_setValue_other s hj.symm o, ?_⟩
      simp
    · cases hi
    · cases hi
    · cases hi
    · cases hi.symm.trans (destination_of_isTest htest)

/-- Settles O25: a failure writes ERR and ERRLOG, a success ERR and the one output of the command. -/
theorem readersFrame : Obligations.ReadersFrame := by
  unfold Obligations.ReadersFrame
  intro s t i hi hsetup h
  obtain ⟨e, rfl⟩ | ⟨u, hu, rfl⟩ := exec_cases h
  · simp
  · obtain ⟨vd, o, hi', -⟩ | ⟨ctx, k, rfl, -⟩ | ⟨va, x, n, rfl, rfl⟩ | ⟨va, x, L, rfl, rfl⟩ | ⟨htest, b, rfl⟩ :=
      hu.writes
    · cases hi.symm.trans hi'
    · exact absurd rfl (hsetup ctx)
    · simp
    · simp
    · simp [htest]

/-- Settles O26: a failure writes ERR and ERRLOG, a success the named context and ERR. -/
theorem setupFrame : Obligations.SetupFrame := by
  unfold Obligations.SetupFrame
  intro s t ctx h
  obtain ⟨e, rfl⟩ | ⟨u, hu, rfl⟩ := exec_cases h
  · simp [State.contextAt]
  · cases hu with
    | psetup =>
      refine ⟨fun c hc => State.contextAt_setContext_other s hc.symm _, ?_⟩
      simp

/-! ## Two runs of one command (R30) -/

/-- Two computations of a command's results end alike: with results that `rel` relates, or with one error. -/
inductive EndsAlike (rel : State → State → Prop) : Except ErrorCode State → Except ErrorCode State → Prop where
  | ok {u u' : State} (h : rel u u') : EndsAlike rel (.ok u) (.ok u')
  | error (e : ErrorCode) : EndsAlike rel (.error e) (.error e)

section twoRuns
variable {rel : State → State → Prop}

/-- What starts with one check and then ends alike ends alike. -/
theorem EndsAlike.bind {α : Type} {x : Except ErrorCode α} {f f' : α → Except ErrorCode State}
    (h : ∀ a, EndsAlike rel (f a) (f' a)) : EndsAlike rel (x >>= f) (x >>= f') := by
  cases x with
  | error e => exact .error e
  | ok a => exact h a

theorem EndsAlike.ite {p : Prop} [Decidable p] {e : ErrorCode} {r r' : Except ErrorCode State}
    (h : EndsAlike rel r r') : EndsAlike rel (if p then .error e else r) (if p then .error e else r') := by
  by_cases hp : p
  · simpa [hp] using .error e
  · simpa [hp] using h

/-- Commands whose computations end alike both fail, with one code, or both succeed, with related results. -/
theorem EndsAlike.complete {r r' : Except ErrorCode State} (h : EndsAlike rel r r') (s s' : State) :
    (∃ e, s.complete r = .next (s.fail e) ∧ s'.complete r' = .next (s'.fail e)) ∨
      ∃ u u', rel u u' ∧ s.complete r = .next u.succeed ∧ s'.complete r' = .next u'.succeed := by
  cases h with
  | ok h => exact .inr ⟨_, _, h, rfl, rfl⟩
  | error e => exact .inl ⟨e, rfl, rfl⟩

end twoRuns

/-- Two results of command `i` agree on the value registers, the contexts, and the outputs that `i` writes. -/
structure SameResults (i : Instr) (u u' : State) : Prop where
  values : u'.values = u.values
  contexts : u'.contexts = u.contexts
  t : isTest i = true → u'.t = u.t
  dout : (∃ va, i = .value va) → u'.dout = u.dout ∧ u'.dlen = u.dlen
  bout : (∃ va, i = .ser va) → u'.bout = u.bout ∧ u'.blen = u.blen

/-- The results of a command that writes none of the outputs agree when its registers and contexts do. -/
theorem SameResults.of_no_output {i : Instr} {u u' : State} (htest : isTest i = false) (hvalue : ∀ va, i ≠ .value va)
    (hser : ∀ va, i ≠ .ser va) (hv : u'.values = u.values) (hc : u'.contexts = u.contexts) : SameResults i u u' where
  values := hv
  contexts := hc
  t h := by simp [htest] at h
  dout := fun ⟨va, h⟩ => absurd h (hvalue va)
  bout := fun ⟨va, h⟩ => absurd h (hser va)

/-- No check and no result of a command is computed from what only the host reads (R20). -/
theorem exec_endsAlike_withOutputs (s : State) (i : Instr) (t : Bool) (err : BitVec 8) (errlog : Word32)
    (dout : List Nat) (dlen : Word32) (bout : List Byte) (blen : Word32) :
    ∃ r r', exec i s = s.complete r ∧
      exec i (withOutputs s t err errlog dout dlen bout blen) =
        (withOutputs s t err errlog dout dlen bout blen).complete r' ∧ EndsAlike (SameResults i) r r' := by
  cases i with
  | psetup ctx =>
    refine ⟨_, _, rfl, rfl, .bind fun _ => ?_⟩
    exact .ite (.ok (.of_no_output rfl nofun nofun rfl rfl))
  | vnew =>
    exact ⟨_, _, rfl, rfl, .bind fun _ => .bind fun _ => .ok (.of_no_output rfl nofun nofun rfl rfl)⟩
  | inv =>
    exact ⟨_, _, rfl, rfl, .bind fun _ => .bind fun _ => .bind fun _ => .ok (.of_no_output rfl nofun nofun rfl rfl)⟩
  | vfree vd => exact ⟨_, _, rfl, rfl, .bind fun _ => .ok (.of_no_output rfl nofun nofun rfl rfl)⟩
  | add | sub | mul | sqr | neg | mul2 | mul3 | mul4 | mul8 | fixsz =>
    exact ⟨_, _, rfl, rfl, .bind fun _ => .bind fun _ => .ok (.of_no_output rfl nofun nofun rfl rfl)⟩
  | value va => exact ⟨_, _, rfl, rfl, .bind fun _ => .bind fun _ => .ok ⟨rfl, rfl, nofun, fun _ => ⟨rfl, rfl⟩, nofun⟩⟩
  | ser va => exact ⟨_, _, rfl, rfl, .bind fun _ => .bind fun _ => .ok ⟨rfl, rfl, nofun, nofun, fun _ => ⟨rfl, rfl⟩⟩⟩
  | isone => exact ⟨_, _, rfl, rfl, .bind fun _ => .bind fun _ => .ok ⟨rfl, rfl, fun _ => rfl, nofun, nofun⟩⟩
  | iszero | eq | ne => exact ⟨_, _, rfl, rfl, .bind fun _ => .ok ⟨rfl, rfl, fun _ => rfl, nofun, nofun⟩⟩

/-- Settles O27: the two runs end alike. -/
theorem outputsNeverInfluenceCommands : Obligations.OutputsNeverInfluenceCommands := by
  unfold Obligations.OutputsNeverInfluenceCommands
  intro s u i t err errlog dout dlen bout blen h
  obtain ⟨r, r', hr, hr', halike⟩ := exec_endsAlike_withOutputs s i t err errlog dout dlen bout blen
  rw [hr] at h
  rw [hr']
  obtain ⟨e, he, he'⟩ | ⟨v, v', hv, he, he'⟩ := halike.complete s (withOutputs s t err errlog dout dlen bout blen)
  · cases h.symm.trans he
    exact ⟨_, he', rfl, rfl, rfl, fun h0 => absurd h0 e.ofNat_code_ne_zero⟩
  · cases h.symm.trans he
    exact ⟨_, he', hv.values, hv.contexts, rfl, fun _ => ⟨hv.t, hv.dout, hv.bout⟩⟩

/-! ## Reset and STATUS (R31, R40) -/

theorem join_getElem?_replicate_none {α : Type} (n i : Nat) : (List.replicate n (none : Option α))[i]?.join = none := by
  rw [List.getElem?_replicate]
  split <;> rfl

/-- Settles O10: by what HostReset leaves of each element. -/
theorem hostResetClearsEverything : Obligations.HostResetClearsEverything := by
  unfold Obligations.HostResetClearsEverything
  intro s rest
  refine ⟨_, step_hostReset rfl, fun c => ?_, fun i => ?_, ?_⟩
  · rw [State.contextAt, hostReset_contexts, join_getElem?_replicate_none]
  · rw [State.valueAt, hostReset_values, join_getElem?_replicate_none]
  · simp [Config.bytesMax]

/-- STATUS is ERR's byte above T's, each of which fits (R31). -/
theorem State.status_toNat (s : State) : s.status.toNat = s.err.toNat * 256 + s.t.toNat := by
  have herr := s.err.isLt
  have ht : s.t.toNat = if s.t then 1 else 0 := by cases s.t <;> rfl
  rw [ht]
  exact Nat.mod_eq_of_lt (by split <;> omega)

/-- Settles O12: each field is a quotient and a remainder of the number that STATUS is. -/
theorem statusWordLayout : Obligations.StatusWordLayout := by
  unfold Obligations.StatusWordLayout
  intro s
  have hs := s.status_toNat
  have herr := s.err.isLt
  have ht := s.t.toNat_lt
  refine ⟨?_, ?_, ?_, ?_⟩
  · rw [BitVec.getLsbD, hs, Nat.testBit_zero]
    cases s.t <;> simp <;> omega
  all_goals
    apply BitVec.eq_of_toNat_eq
    simp only [BitVec.extractLsb'_toNat, hs, Nat.shiftRight_eq_div_pow, BitVec.ofNat_eq_ofNat, BitVec.toNat_ofNat]
    omega

end Sys2Proof.Machine
end

section
/-! PROOFS. Family 20_memory.md: the host's transactions. What R51's table says of each (O8), that exactly the
transactions of the table complete (O9), the step that runs a command (O7), and HostLoad and HostFetch (O11). -/

namespace Sys2Proof.Machine

open Sys2Proof.Claims

/-! ## One transaction (R51) -/

section transactions
variable {s : State} {i j w : Nat} {c : Word32}

theorem transact_hostWriteDIN (hi : i < s.cfg.nMax) (hw : w < 2 ^ s.cfg.W) :
    transact (.hostWriteDIN i w) s = .next (s.setDin i w) := by
  simp [transact, hostWriteDin, hi, hw]

theorem transact_hostReadDOUT (hi : i < s.cfg.nMax) :
    transact (.hostReadDOUT i) s = .next (s.reply (s.dout.getD i 0)) := by
  simp [transact, hostReadDout, hi]

theorem transact_hostReadBOUT (hj : j < (s.cfg.nMax * s.cfg.W + 7) / 8) :
    transact (.hostReadBOUT j) s = .next (s.reply (s.bout.getD j 0).toNat) :=
  if_pos hj

theorem hostIssue_of_decode {i : Instr} (h : decode c = .ok i) (s : State) : hostIssue c s = exec i s := by
  simp [hostIssue, h]

/-- Every word completes: one that is no command fails, and a command fails or has its effect (R57, R199). -/
theorem hostIssue_completes (c : Word32) (s : State) : ∃ t, hostIssue c s = .next t := by
  cases hd : decode c with
  | error e => exact ⟨s.fail .illegalCommand, by simp [hostIssue, hd]⟩
  | ok i =>
    rw [hostIssue_of_decode hd]
    obtain ⟨e, he⟩ | ⟨u, -, he⟩ := exec_effect_or_fails i s
    · exact ⟨_, he⟩
    · exact ⟨_, he⟩

theorem transact_completes {tx : Transaction} (h : inTable s.cfg tx) : ∃ t, transact tx s = .next t := by
  cases tx with
  | hostWriteDIN i w =>
    obtain ⟨hi, hw⟩ := h
    exact ⟨_, transact_hostWriteDIN hi hw⟩
  | hostIssue c => exact hostIssue_completes c s
  | hostReadDOUT i => exact ⟨_, transact_hostReadDOUT h⟩
  | hostReadBOUT j => exact ⟨_, transact_hostReadBOUT h⟩
  | hostReadSTATUS | hostReadERRLOG | hostReadDLEN | hostReadBLEN | hostReset => exact ⟨_, rfl⟩
  | wrongDirection port => exact h.elim

theorem transact_refused {tx : Transaction} (h : ¬ inTable s.cfg tx) : ∃ r, transact tx s = .refused r := by
  cases tx with
  | hostWriteDIN i w =>
    by_cases hi : i < s.cfg.nMax
    · have hw : ¬ w < 2 ^ s.cfg.W := fun hw => h ⟨hi, hw⟩
      exact ⟨.wordTooWide w, by simp [transact, hostWriteDin, hi, hw]⟩
    · exact ⟨.indexOutOfRange .din i, by simp [transact, hostWriteDin, hi]⟩
  | hostReadDOUT i => exact ⟨.indexOutOfRange .dout i, if_neg h⟩
  | hostReadBOUT j => exact ⟨.indexOutOfRange .bout j, if_neg h⟩
  | hostIssue | hostReadSTATUS | hostReadERRLOG | hostReadDLEN | hostReadBLEN | hostReset => exact absurd trivial h
  | wrongDirection port => exact ⟨.wrongDirection port, rfl⟩

end transactions

/-- Settles O9: a transaction of the table completes, and any other is refused. -/
theorem definedTransactionsComplete : Obligations.DefinedTransactionsComplete := by
  unfold Obligations.DefinedTransactionsComplete
  intro s tx
  refine ⟨fun ⟨t, ht⟩ => ?_, transact_completes⟩
  by_contra hout
  obtain ⟨r, hr⟩ := transact_refused hout
  cases ht.symm.trans hr

/-! ## One step -/

/-- A step is the oldest pending transaction. -/
theorem step_of_pending {s : State} {tx : Transaction} {rest : List Transaction} (hp : s.pending = tx :: rest) :
    step s = transact tx { s with pending := rest } := by
  simp [step, nextTransaction, hp]

/-- The first of the transactions asked for is the next step. -/
theorem step_ask_cons (s : State) (tx : Transaction) (txs : List Transaction) :
    step (s.ask (tx :: txs)) = transact tx (s.ask txs) :=
  step_of_pending rfl

theorem tableWord_toNat (c : Word32) : tableWord 32 c.toNat = c := by
  rw [tableWord, Nat.mod_eq_of_lt c.isLt, BitVec.ofNat_toNat, BitVec.setWidth_eq]

/-- Settles O7: the step is HostIssue of the word, which is `exec` of the command it decodes to. -/
theorem stepRunsTheIssuedCommand : Obligations.StepRunsTheIssuedCommand := by
  unfold Obligations.StepRunsTheIssuedCommand
  intro s c i hd
  refine ⟨fun rest hp => ?_, ?_⟩
  · exact (step_of_pending hp).trans (hostIssue_of_decode hd _)
  · rw [State.withFetchWord, tableWord_toNat, step_ask_cons]
    exact hostIssue_of_decode hd s

/-- Settles O8: the step is the transaction at the head of the list, and each has its row of the table. -/
theorem hostTransactionEffects : Obligations.HostTransactionEffects := by
  unfold Obligations.HostTransactionEffects
  intro s rest
  refine ⟨fun i w hi hw => ?_, fun i hi w hw => ?_, fun j hj b hb => ?_, ?_, rfl, rfl, rfl, fun c => rfl, rfl,
    fun tx hout => ?_, rfl⟩
  · exact transact_hostWriteDIN (s := { s with pending := rest }) hi hw
  · rw [step_of_pending rfl]
    simp [transact_hostReadDOUT, State.reply, hi, hw]
  · rw [step_of_pending rfl]
    simp [transact_hostReadBOUT, State.reply, hj, hb]
  · rw [← State.status_toNat]
    rfl
  · rw [step_of_pending rfl]
    exact transact_refused hout

/-! ## HostLoad and HostFetch (R52) -/

theorem wordsOf_getElem? {W n x i : Nat} (h : i < n) : (wordsOf W n x)[i]? = some (wordOf W x i) := by
  simp [wordsOf, h]

theorem eq_wordsOf {W n x : Nat} {ws : List Nat} (hlen : ws.length = n)
    (h : ∀ i < n, ws[i]? = some (wordOf W x i)) : ws = wordsOf W n x := by
  refine List.ext_getElem? fun i => ?_
  by_cases hi : i < n
  · rw [h i hi, wordsOf_getElem? hi]
  · rw [List.getElem?_eq_none (by omega), List.getElem?_eq_none (by simpa using hi)]

/-- Writes to DIN of words of `x`, in any order, leave all the words of `x` there, if they were there at every index
that is not written. -/
theorem stepsTo_writes {x : Nat} (l : List Nat) (s : State) (hlen : s.din.length = s.cfg.nMax)
    (hl : ∀ i ∈ l, i < s.cfg.nMax)
    (hrest : ∀ i, i < s.cfg.nMax → i ∉ l → s.din[i]? = some (wordOf s.cfg.W x i)) :
    stepsTo l.length (s.ask (l.map fun i => .hostWriteDIN i (wordOf s.cfg.W x i)))
      { s with din := wordsOf s.cfg.W s.cfg.nMax x } := by
  induction l generalizing s with
  | nil =>
    rw [← eq_wordsOf hlen fun i hi => hrest i hi List.not_mem_nil]
    rfl
  | cons i l ih =>
    obtain ⟨hi, hl⟩ := List.forall_mem_cons.1 hl
    refine ⟨_, (step_ask_cons ..).trans (transact_hostWriteDIN hi (wordOf_lt ..)), ?_⟩
    refine ih (s.setDin i (wordOf s.cfg.W x i)) (by simpa using hlen) hl fun j hj hjl => ?_
    by_cases hij : i = j
    · subst hij
      exact List.getElem?_set_self (hlen ▸ hi)
    · rw [State.setDin_din, List.getElem?_set_ne hij]
      exact hrest j hj (by simp [hjl, Ne.symm hij])

/-- Reads of DOUT return the words they name, the last one newest. -/
theorem stepsTo_reads (l : List Nat) (s : State) (hl : ∀ i ∈ l, i < s.cfg.nMax) :
    stepsTo l.length (s.ask (l.map .hostReadDOUT))
      { s with replies := (l.map (s.dout.getD · 0)).reverse ++ s.replies } := by
  induction l generalizing s with
  | nil => rfl
  | cons i l ih =>
    obtain ⟨hi, hl⟩ := List.forall_mem_cons.1 hl
    refine ⟨_, (step_ask_cons ..).trans (transact_hostReadDOUT hi), ?_⟩
    simpa [State.reply, State.ask] using ih (s.reply (s.dout.getD i 0)) hl

theorem map_getD_range {α : Type} (l : List α) (a : α) : (List.range l.length).map (l.getD · a) = l :=
  List.ext_getElem (by simp) fun i _ hi => by simp [hi]

/-- HostFetch returns the words of DOUT and changes nothing of the block. -/
theorem stepsTo_hostFetch {s : State} (hlen : s.dout.length = s.cfg.nMax) :
    stepsTo s.cfg.nMax (s.ask (hostFetch s.cfg)) { s with replies := s.dout.reverse ++ s.replies } := by
  have h := stepsTo_reads (List.range s.cfg.nMax) s (by simp)
  rwa [List.length_range, ← hlen, map_getD_range, hlen] at h

/-- Settles O11: the writes leave the words of `x` in DIN, whose integer is `x`; HostFetch's replies are DOUT's words,
reversed. -/
theorem hostLoadAndHostFetch : Obligations.HostLoadAndHostFetch := by
  unfold Obligations.HostLoadAndHostFetch
  intro s hs
  obtain ⟨-, ⟨-, ⟨hdin, hdout, -⟩, -⟩, -⟩ := hs
  refine ⟨fun x l hx hl hrest => ⟨_, stepsTo_writes l s hdin hl hrest, ?_, rfl⟩, fun x => rfl,
    _, stepsTo_hostFetch hdout, rfl, rfl, ?_⟩
  · exact (intOf_wordsOf ..).trans (Nat.mod_eq_of_lt hx)
  · rw [← hdout, ← List.length_reverse, List.take_left, List.reverse_reverse]

end Sys2Proof.Machine
end

section
/-! PROOFS. Family 30_encoding.md: the decoder and the assembler are inverse to each other (O1, O2, O6), the opcode map
(O3), and the words and indices that fail with IllegalCommand (O4, O5). -/

namespace Sys2Proof

/-! ## Assembly and decoding (R71, R75, R80) -/

section words
variable {c m w : Word32} {i j : Instr}

/-- A byte whose bits 7:1 are 0 is the flag byte of its bit 0 (R72). -/
theorem flagByte_getElem_zero {b : Byte} (h : b &&& 254#8 = 0#8) : flagByte b[0] = b := by
  revert b
  decide

theorem withZeros_eq_ok_iff {zeros : List Byte} :
    withZeros c zeros i = .ok j ↔ (∀ z ∈ zeros, z = 0) ∧ i = j := by
  rw [withZeros]
  split
  · rename_i h
    exact ⟨fun h' => ⟨by simpa using h, Except.ok.inj h'⟩, fun ⟨_, h'⟩ => congrArg _ h'⟩
  · rename_i h
    exact ⟨nofun, fun ⟨h', _⟩ => absurd (by simpa using h') h⟩

theorem decode_encode (i : Instr) : decode (encode i) = .ok i := by
  cases i with
  | vnew vd ctx e => cases e <;> simp [encode, flagByte, decode, withZeros]
  | _ => simp [encode, decode, withZeros]

/-- An opcode of R73 with the fields of its format that must be 0 at 0 is what `encode` packs. -/
theorem encode_of_decode (h : decode c = .ok i) : encode i = c := by
  obtain ⟨op, rd, ra, rb, rfl⟩ := exists_pack c
  simp only [decode, fieldOp_pack, fieldRd_pack, fieldRa_pack, fieldRb_pack] at h
  split at h
  case h_21 => cases h -- a reserved opcode
  all_goals -- a row of R73
    rename_i hop
    obtain ⟨hz, rfl⟩ := withZeros_eq_ok_iff.1 h
    rw [encode, pack_inj]
    refine ⟨BitVec.eq_of_toNat_eq hop.symm, ?_⟩
    simp_all [flagByte_getElem_zero]

/-- A masked word is compared field by field. -/
theorem and_eq_iff_fields : c &&& m = w ↔
    fieldOp c &&& fieldOp m = fieldOp w ∧ fieldRd c &&& fieldRd m = fieldRd w ∧
      fieldRa c &&& fieldRa m = fieldRa w ∧ fieldRb c &&& fieldRb m = fieldRb w := by
  obtain ⟨_, _, _, _, rfl⟩ := exists_pack c
  obtain ⟨_, _, _, _, rfl⟩ := exists_pack m
  obtain ⟨_, _, _, _, rfl⟩ := exists_pack w
  simp only [pack_and, pack_inj, fieldOp_pack, fieldRd_pack, fieldRa_pack, fieldRb_pack]

theorem fieldOp_toNat (c : Word32) : (fieldOp c).toNat = c.toNat / 2 ^ 24 := by
  obtain ⟨op, rd, ra, rb, rfl⟩ := exists_pack c
  rw [fieldOp_pack, pack_toNat]
  omega

end words

/-- Settles O1, command by command: the decoder reads each field where the assembler put it. -/
theorem decodeOfEncodeIsTheCommand : Obligations.DecodeOfEncodeIsTheCommand := decode_encode

/-- Settles O2, row by row of the decoder: the fields it does not hand on are 0. -/
theorem decodedWordIsItsEncoding : Obligations.DecodedWordIsItsEncoding := fun _ _ => encode_of_decode

/-- Settles O6: each worked word is the encoding of its command. -/
theorem workedEncodings : Obligations.WorkedEncodings :=
  ⟨⟨decode_encode (.psetup 1), decode_encode (.vnew 3 0 true), decode_encode (.vfree 3), decode_encode (.add 2 0 1),
    decode_encode (.sqr 3 3), decode_encode (.value 2), decode_encode (.eq 0 1)⟩, pack_toNat⟩

/-! ## The opcode map (R73) -/

section rows
variable {c : Word32} {i : Instr} {r r' : OpcodeRow}

theorem row_eq_of_mnemonic (hr : r ∈ opcodeRows) (hr' : r' ∈ opcodeRows) (h : r.mnemonic = r'.mnemonic) : r = r' :=
  List.inj_on_of_nodup_map (f := OpcodeRow.mnemonic) (by decide) hr hr' h

theorem byte_and_255 (b : Byte) : b &&& 255#8 = b := BitVec.and_allOnes

/-- Every command has its row, and its encoding matches the row. -/
theorem encode_matches_row : ∀ i, Laws.OpcodeMap.Statement i
  | .psetup ctx => Laws.OpcodeMap.psetup ctx
  | .vnew vd ctx e => Laws.OpcodeMap.vnew vd ctx e
  | .vfree vd => Laws.OpcodeMap.vfree vd
  | .add vd va vb => Laws.OpcodeMap.add vd va vb
  | .sub vd va vb => Laws.OpcodeMap.sub vd va vb
  | .mul vd va vb => Laws.OpcodeMap.mul vd va vb
  | .sqr vd va => Laws.OpcodeMap.sqr vd va
  | .inv vd va => Laws.OpcodeMap.inv vd va
  | .neg vd va => Laws.OpcodeMap.neg vd va
  | .mul2 vd va => Laws.OpcodeMap.mul2 vd va
  | .mul3 vd va => Laws.OpcodeMap.mul3 vd va
  | .mul4 vd va => Laws.OpcodeMap.mul4 vd va
  | .mul8 vd va => Laws.OpcodeMap.mul8 vd va
  | .fixsz vd => Laws.OpcodeMap.fixsz vd
  | .value va => Laws.OpcodeMap.value va
  | .ser va => Laws.OpcodeMap.ser va
  | .iszero va => Laws.OpcodeMap.iszero va
  | .isone va => Laws.OpcodeMap.isone va
  | .eq va vb => Laws.OpcodeMap.eq va vb
  | .ne va vb => Laws.OpcodeMap.ne va vb

theorem matches_row_of_decode (h : decode c = .ok i) :
    ∃ r ∈ opcodeRows, r.mnemonic = i.mnemonic ∧ c &&& r.mask = r.pattern :=
  encode_of_decode h ▸ encode_matches_row i

/-- A word that matches a row decodes, to a command of the row: its opcode is the row's and the fields the row's format
reserves are 0. -/
theorem decode_of_matches_row (hr : r ∈ opcodeRows) (h : c &&& r.mask = r.pattern) :
    ∃ i, decode c = .ok i ∧ i.mnemonic = r.mnemonic := by
  obtain ⟨op, rd, ra, rb, rfl⟩ := exists_pack c
  simp only [and_eq_iff_fields, fieldOp_pack, fieldRd_pack, fieldRa_pack, fieldRb_pack] at h
  unfold opcodeRows at hr
  fin_cases hr
  all_goals
    simp only [fieldOp, fieldRd, fieldRa, fieldRb, BitVec.ofNat_eq_ofNat, BitVec.reduceExtractLsb', byte_and_255,
      BitVec.and_zero] at h
    simp [decode, withZeros, h]
    rfl

theorem matches_row_iff (hr : r ∈ opcodeRows) :
    c &&& r.mask = r.pattern ↔ ∃ i, decode c = .ok i ∧ i.mnemonic = r.mnemonic := by
  constructor
  · exact decode_of_matches_row hr
  · rintro ⟨i, hi, hm⟩
    obtain ⟨r', hr', hm', h⟩ := matches_row_of_decode hi
    exact row_eq_of_mnemonic hr' hr (hm'.trans hm) ▸ h

/-- Every mask keeps the whole opcode, and no row's opcode is reserved (R74). -/
theorem not_reservedOpcode_of_matches_row (hr : r ∈ opcodeRows) (h : c &&& r.mask = r.pattern) :
    ¬ Claims.reservedOpcode (c.toNat / 2 ^ 24) := by
  have hrow : ∀ r ∈ opcodeRows,
      fieldOp r.mask = BitVec.allOnes 8 ∧ ¬ Claims.reservedOpcode (fieldOp r.pattern).toNat := by decide
  obtain ⟨hmask, hpattern⟩ := hrow r hr
  obtain ⟨hop, -⟩ := and_eq_iff_fields.1 h
  rw [hmask, BitVec.and_allOnes] at hop
  rwa [← fieldOp_toNat, hop]

end rows

/-- Settles O3: two rows that a word matches bear the mnemonic of the one command it decodes to. -/
theorem decodeAgreesWithOpcodeMap : Obligations.DecodeAgreesWithOpcodeMap := by
  refine ⟨fun c r hr => matches_row_iff hr, fun c r hr r' hr' h h' => ?_⟩
  obtain ⟨i, hi, hm⟩ := decode_of_matches_row hr h
  obtain ⟨i', hi', hm'⟩ := decode_of_matches_row hr' h'
  cases hi.symm.trans hi'
  exact row_eq_of_mnemonic hr hr' (hm.symm.trans hm')

end Sys2Proof

namespace Sys2Proof.Machine

open Sys2Proof.Claims

/-! ## IllegalCommand (R74 to R76, R185) -/

/-- R189's failure, written afresh in `Claims`, is the model's. -/
theorem failed_eq_fail (s : State) (e : ErrorCode) : failed s e = s.fail e := by cases e <;> rfl

section illegal
variable {s : State} {c : Word32} {i : Instr}

theorem hostIssue_of_not_command (h : ∀ i, decode c ≠ .ok i) (s : State) :
    hostIssue c s = .next (s.fail .illegalCommand) := by
  cases hd : decode c with
  | ok i => exact absurd hd (h i)
  | error e => simp [hostIssue, hd]

/-- A command whose first check fails ends in its code (R78). -/
theorem complete_bind_error {α : Type} {x : Except ErrorCode α} {f : α → Except ErrorCode State} {e : ErrorCode}
    (h : x = .error e) : s.complete (x >>= f) = .next (s.fail e) := by
  rw [h, error_bind, State.complete_error]

/-- The format of each command checks all the indices of R71's fields (R76, step 2 of R78). -/
theorem exec_illegal (h : (∃ r ∈ regFields i, s.cfg.nV ≤ r.toNat) ∨ ∃ c ∈ ctxFields i, s.cfg.nP ≤ c.toNat) :
    exec i s = .next (s.fail .illegalCommand) := by
  cases i with
  | psetup ctx => exact complete_bind_error (formatP_illegal (by simpa [regFields, ctxFields] using h))
  | vnew vd ctx e => exact complete_bind_error (formatN_illegal (by simpa [regFields, ctxFields] using h))
  | vfree vd | fixsz vd =>
    exact complete_bind_error (needReg_error_iff.2 ⟨rfl, by simpa [regFields, ctxFields] using h⟩)
  | add vd va vb | sub vd va vb | mul vd va vb =>
    exact complete_bind_error (formatRRR_illegal (by simpa [regFields, ctxFields] using h))
  | sqr vd va | inv vd va | neg vd va | mul2 vd va | mul3 vd va | mul4 vd va | mul8 vd va =>
    exact complete_bind_error (formatRR_illegal (by simpa [regFields, ctxFields] using h))
  | value va | ser va | iszero va | isone va =>
    exact complete_bind_error (formatS_illegal (by simpa [regFields, ctxFields] using h))
  | eq va vb | ne va vb =>
    exact complete_bind_error (formatSS_illegal (by simpa [regFields, ctxFields] using h))

end illegal

/-- Settles O4: a word with a reserved opcode matches no row, and a word that matches no row is no command. -/
theorem reservedWordsFailIllegal : Obligations.ReservedWordsFailIllegal := by
  intro s c h
  rw [failed_eq_fail]
  refine hostIssue_of_not_command (fun i hi => ?_) s
  obtain ⟨r, hr, -, hc⟩ := matches_row_of_decode hi
  exact h.elim (not_reservedOpcode_of_matches_row hr hc) fun hnone => hnone r hr hc

/-- Settles O5; a field has 8 bits, so that its number is below 256. -/
theorem outOfRangeIndexFailsIllegal : Obligations.OutOfRangeIndexFailsIllegal := by
  intro s i
  refine ⟨fun h => ?_, fun hV r _ => hV ▸ r.isLt, fun hP c _ => hP ▸ c.isLt⟩
  rw [failsWith, failed_eq_fail]
  exact exec_illegal h

end Sys2Proof.Machine
end

section
/-! PROOFS. Family 40_param_precompute.md: no command reads R3 (O28), `p_dash` is the one word of R102 (O30), and what
PSETUP constructs (O37). -/

namespace Sys2Proof.Machine

open Sys2Proof.Claims

/-! ## R3 is never read (R100) -/

/-- A context with its R3 changed by `f`: what `mapThirdPower` makes of each. -/
def Context.mapR3 (f : Nat → Nat) (k : Context) : Context := { k with R3 := f k.R3 }

section thirdPower
variable {s u : State} {i : Instr} {f : Nat → Nat} {rel : State → State → Prop}

/-- What one run of a command that ends tells of a run that ends alike. -/
theorem EndsAlike.complete_of_next {t : State} {r r' : Except ErrorCode State} (h : EndsAlike rel r r')
    (ht : s.complete r = .next t) (s' : State) :
    (∃ e, t = s.fail e ∧ s'.complete r' = .next (s'.fail e)) ∨
      ∃ u u', rel u u' ∧ t = u.succeed ∧ s'.complete r' = .next u'.succeed := by
  obtain ⟨e, he, he'⟩ | ⟨u, u', hu, he, he'⟩ := h.complete s s' <;> cases ht.symm.trans he
  · exact .inl ⟨e, rfl, he'⟩
  · exact .inr ⟨u, u', hu, rfl, he'⟩

theorem contextAt_mapThirdPower (s : State) (f : Nat → Nat) (c : Nat) :
    (mapThirdPower f s).contextAt c = (s.contextAt c).map (Context.mapR3 f) := by
  rw [State.contextAt, State.contextAt, mapThirdPower, List.getElem?_map]
  exact Option.join_map_eq_map_join

theorem fieldsOf_mapThirdPower (s : State) (f : Nat → Nat) (c : Nat) :
    fieldsOf (mapThirdPower f s) c = (fieldsOf s c).map (Context.mapR3 f) := by
  rw [fieldsOf, fieldsOf, contextAt_mapThirdPower]
  cases s.contextAt c <;> rfl

/-- Of a context, two runs that differ in R3 read the same but for its R3, or fail with one code. -/
theorem EndsAlike.bind_fieldsOf {c : Nat} {g g' : Context → Except ErrorCode State}
    (h : ∀ k, EndsAlike rel (g k) (g' (k.mapR3 f))) :
    EndsAlike rel (fieldsOf s c >>= g) (fieldsOf (mapThirdPower f s) c >>= g') := by
  rw [fieldsOf_mapThirdPower]
  cases fieldsOf s c with
  | error e => exact .error e
  | ok k => exact h k

theorem EndsAlike.bind_formatN {vd ctx : Index} {g g' : Context → Except ErrorCode State}
    (h : ∀ k, EndsAlike rel (g k) (g' (k.mapR3 f))) :
    EndsAlike rel (formatN s vd ctx >>= g) (formatN (mapThirdPower f s) vd ctx >>= g') := by
  simp only [formatN, bind_assoc]
  exact .bind fun _ => .bind fun _ => .bind_fieldsOf h

/-- Every command but PSETUP has the same checks and results when R3 is changed first, and leaves it so. -/
theorem exec_endsAlike_mapThirdPower (s : State) (f : Nat → Nat) (hi : ∀ ctx, i ≠ .psetup ctx) :
    ∃ r r', exec i s = s.complete r ∧ exec i (mapThirdPower f s) = (mapThirdPower f s).complete r' ∧
      EndsAlike (fun u u' => u' = mapThirdPower f u) r r' := by
  cases i with
  | psetup ctx => exact absurd rfl (hi ctx)
  | vnew => exact ⟨_, _, rfl, rfl, .bind_formatN fun _ => .bind fun _ => .ok rfl⟩
  | inv => exact ⟨_, _, rfl, rfl, .bind fun _ => .bind_fieldsOf fun _ => .bind fun _ => .ok rfl⟩
  | vfree | iszero | eq | ne => exact ⟨_, _, rfl, rfl, .bind fun _ => .ok rfl⟩
  | fixsz => exact ⟨_, _, rfl, rfl, .bind fun _ => .bind fun _ => .ok rfl⟩
  | add | sub | mul | sqr | neg | mul2 | mul3 | mul4 | mul8 | value | ser | isone =>
    exact ⟨_, _, rfl, rfl, .bind fun _ => .bind_fieldsOf fun _ => .ok rfl⟩

/-- Changing every R3 commutes with every command but PSETUP. -/
theorem exec_mapThirdPower (hi : ∀ ctx, i ≠ .psetup ctx) (h : exec i s = .next u) :
    exec i (mapThirdPower f s) = .next (mapThirdPower f u) := by
  obtain ⟨r, r', hr, hr', halike⟩ := exec_endsAlike_mapThirdPower s f hi
  obtain ⟨e, rfl, he⟩ | ⟨v, v', rfl, rfl, he⟩ := halike.complete_of_next (hr.symm.trans h) (mapThirdPower f s)
  · exact hr'.trans he
  · exact hr'.trans he

/-- PSETUP reads no field of a context: with R3 changed it fails alike, or constructs the same context. -/
theorem exec_psetup_mapThirdPower {ctx : Index} (h : exec (.psetup ctx) s = .next u) :
    (∃ e, u = s.fail e ∧ exec (.psetup ctx) (mapThirdPower f s) = .next ((mapThirdPower f s).fail e)) ∨
      ∃ k, u = (s.setContext ctx.toNat k).succeed ∧
        exec (.psetup ctx) (mapThirdPower f s) = .next ((mapThirdPower f s).setContext ctx.toNat k).succeed := by
  obtain ⟨r, r', hr, hr', halike⟩ : ∃ r r', exec (.psetup ctx) s = s.complete r ∧
      exec (.psetup ctx) (mapThirdPower f s) = (mapThirdPower f s).complete r' ∧
        EndsAlike (fun u u' => ∃ k, u = s.setContext ctx.toNat k ∧ u' = (mapThirdPower f s).setContext ctx.toNat k)
          r r' :=
    ⟨_, _, rfl, rfl, .bind fun _ => .ite (.ok ⟨_, rfl, rfl⟩)⟩
  obtain ⟨e, rfl, he⟩ | ⟨v, v', ⟨k, rfl, rfl⟩, rfl, he⟩ := halike.complete_of_next (hr.symm.trans h) (mapThirdPower f s)
  · exact .inl ⟨e, rfl, hr'.trans he⟩
  · exact .inr ⟨k, rfl, hr'.trans he⟩

/-- A constructed context reads back the same whatever R3 the contexts had before. -/
theorem contextAt_setContext_mapThirdPower (s : State) (f : Nat → Nat) (c : Nat) (k : Context) :
    ((mapThirdPower f s).setContext c k).contextAt c = (s.setContext c k).contextAt c := by
  simp [State.contextAt, mapThirdPower, List.getElem?_set]

end thirdPower

/-- Settles O28: a command other than PSETUP commutes with the change of R3, and PSETUP reads no field of a context. -/
theorem thirdPowerIsNeverRead : Obligations.ThirdPowerIsNeverRead := by
  unfold Obligations.ThirdPowerIsNeverRead
  intro s u i f h
  by_cases hi : ∃ ctx, i = .psetup ctx
  · obtain ⟨ctx, rfl⟩ := hi
    obtain ⟨e, rfl, he⟩ | ⟨k, rfl, he⟩ := exec_psetup_mapThirdPower (f := f) h
    · exact ⟨_, he, rfl, rfl, rfl, rfl, rfl, rfl, rfl, rfl, fun hne => absurd rfl (hne ctx),
        fun _ _ h0 => absurd h0 e.ofNat_code_ne_zero⟩
    · refine ⟨_, he, rfl, rfl, rfl, rfl, rfl, rfl, rfl, rfl, fun hne => absurd rfl (hne ctx), ?_⟩
      rintro _ ⟨⟩ -
      exact contextAt_setContext_mapThirdPower s f ctx.toNat k
  · have hne : ∀ ctx, i ≠ .psetup ctx := fun ctx hctx => hi ⟨ctx, hctx⟩
    exact ⟨_, exec_mapThirdPower hne h, rfl, rfl, rfl, rfl, rfl, rfl, rfl, rfl, fun _ => rfl,
      fun ctx hctx => absurd hctx (hne ctx)⟩

/-! ## `p_dash` (R102) -/

/-- Settles O30: an odd number is a unit modulo `2^W`, so that `p * d = -1` has one solution. -/
theorem pdashIsTheUniqueWord : Obligations.PdashIsTheUniqueWord := by
  unfold Obligations.PdashIsTheUniqueWord
  intro W p hW hp
  have hpos : 0 < 2 ^ W := Nat.two_pow_pos W
  have hunit : Nat.gcd (p % 2 ^ W) (2 ^ W) = 1 := by
    rw [← Nat.gcd_rec, Nat.gcd_comm]
    exact odd_gcd_two_pow hp W
  obtain ⟨hlt, hclear⟩ := pdash_spec hW hp
  refine ⟨⟨hlt, hclear⟩, rfl, fun d hd hd0 => eq_of_mul_mod_eq hunit hd hlt ?_⟩
  rw [(mul_mod_add_one hpos).1 hd0, (mul_mod_add_one hpos).1 hclear]

/-! ## PSETUP (R100) -/

section psetup
variable {s : State} {ctx : Index}

/-- A context is referenced when some valid register names it (R15). -/
theorem State.referenced_iff {c : Nat} : s.referenced c = true ↔ ∃ i a, s.valueAt i = some a ∧ a.ctx = c := by
  simp only [State.referenced, List.any_eq_true, List.mem_iff_getElem?]
  constructor
  · rintro ⟨o, ⟨i, hi⟩, ho⟩
    cases o with
    | none => cases ho
    | some a => exact ⟨i, a, by simp [State.valueAt, hi], by simpa using ho⟩
  · rintro ⟨i, a, ha, hc⟩
    exact ⟨some a, ⟨i, Option.join_eq_some_iff.1 ha⟩, by simpa using hc⟩

/-- Step 6 of R78 for PSETUP: what is no odd number above 1 is no modulus. -/
theorem exec_psetup_invalid (hops : formatP s ctx = .ok ())
    (hp : s.dinInt = 0 ∨ s.dinInt % 2 = 0 ∨ s.dinInt = 1) :
    exec (.psetup ctx) s = .next (s.fail .invalidModulus) := by
  simp [exec, execPsetup, hops, hp]

/-- The context of a modulus, field by field (R100 to R103). -/
theorem Context.ofModulus_eq (W p : Nat) :
    Context.ofModulus W p = { p := p, pWords := pwords W p, pDash := pdash W p, R1 := rOf W p % p,
                              R2 := rOf W p ^ 2 % p, R3 := rOf W p ^ 3 % p } := by
  simp [Context.ofModulus, rPow]

end psetup

/-- Settles O37: the checks of format P in their order, PSETUP's own check, and the context of the modulus. -/
theorem setupConstructsParameters : Obligations.SetupConstructsParameters := by
  unfold Obligations.SetupConstructsParameters
  intro s ctx hinv
  simp only [failsWith, failed_eq_fail, ← State.referenced_iff, Bool.not_eq_true]
  refine ⟨decode_encode (.psetup ctx), fun hout => ?_, fun hin hbusy => ?_, fun hin hfree => ⟨fun hp => ?_, ?_⟩⟩
  · exact complete_bind_error (formatP_illegal hout)
  · exact complete_bind_error (formatP_busy hin hbusy)
  · exact exec_psetup_invalid (formatP_ok_iff.2 ⟨hin, hfree⟩) hp
  · intro hodd hne
    refine ⟨pwords s.cfg.W s.dinInt, pdash s.cfg.W s.dinInt, rOf s.cfg.W s.dinInt, rfl, rfl,
      pdash_spec hinv.wf.1 hodd, ?_⟩
    rw [exec_of_effect (.psetup ctx hin hfree hodd (by omega)), Context.ofModulus_eq]
    rfl

end Sys2Proof.Machine
end

section
/-! PROOFS. Family 41_redc_mul_sqr.md: what `redc` computes (O31, O32, O33), the two commands built directly on it (O44,
O45), and the arguments the commands hand to it (O59). -/

namespace Sys2Proof.Machine

open Sys2Proof.Claims

/-! ## Montgomery reduction (R111, R112, R116) -/

section reduction
variable {k : Config} {c : Context} {a b x y : Nat}

theorem Context.Valid.R1_modEq (h : Context.Valid k c) : c.R1 ≡ c.R k.W [MOD c.p] := by
  obtain ⟨-, -, -, h1, -⟩ := h
  exact h1 ▸ Nat.mod_modEq _ _

theorem Context.Valid.R2_modEq (h : Context.Valid k c) : c.R2 ≡ c.R k.W ^ 2 [MOD c.p] := by
  obtain ⟨-, -, -, -, h2, -⟩ := h
  exact h2 ▸ Nat.mod_modEq _ _

theorem Context.Valid.R1_lt (h : Context.Valid k c) : c.R1 < c.p := by
  have hpos := h.p_pos
  obtain ⟨-, -, -, h1, -⟩ := h
  exact h1 ▸ Nat.mod_lt _ hpos

theorem Context.Valid.lt_limit (h : Context.Valid k c) : c.p < k.limit := by
  obtain ⟨⟨-, -, hlim⟩, -⟩ := h
  exact hlim

/-- `inv_mod(R1, p)` undoes a multiplication by `R` (R111). -/
theorem Context.Valid.invMod_R1_mul_R (h : Context.Valid k c) (x : Nat) :
    x * invMod c.R1 c.p % c.p * c.R k.W ≡ x [MOD c.p] := by
  have hg : Nat.gcd c.R1 c.p = 1 := h.R1_modEq.gcd_eq.trans h.gcd_R
  have hinv : c.R1 * invMod c.R1 c.p ≡ 1 [MOD c.p] := by
    rw [Nat.ModEq, mul_invMod h.one_lt hg, Nat.mod_eq_of_lt h.one_lt]
  calc x * invMod c.R1 c.p % c.p * c.R k.W ≡ x * invMod c.R1 c.p * c.R1 [MOD c.p] :=
        (Nat.mod_modEq _ _).mul h.R1_modEq.symm
    _ = x * (c.R1 * invMod c.R1 c.p) := by ring
    _ ≡ x * 1 [MOD c.p] := hinv.mul_left x
    _ = x := Nat.mul_one x

/-- `redc` divides by `R` modulo `p`: what the passes add and the last subtraction takes is a multiple of `p` (R111). -/
theorem Context.Valid.redc_mul_R (h : Context.Valid k c) (x : Nat) : c.redc k.W x * c.R k.W ≡ x [MOD c.p] := by
  obtain ⟨-, -, ⟨-, hd⟩, -⟩ := h
  obtain ⟨M, -, hloop⟩ := redcLoop_mul hd c.pWords x
  calc c.redc k.W x * c.R k.W ≡ redcLoop k.W c.p c.pDash c.pWords x * c.R k.W [MOD c.p] :=
        subtractOnce_modEq.mul_right _
    _ = x + M * c.p := hloop
    _ ≡ x [MOD c.p] := by simp [Nat.ModEq]

/-- In its domain `redc(x)` is the one canonical `y` with `y*R = x` modulo `p`, since `R` is a unit (R111). -/
theorem Context.Valid.redc_eq (h : Context.Valid k c) (hx : x < c.R k.W * c.p) (hy : y < c.p)
    (hxy : y * c.R k.W ≡ x [MOD c.p]) : c.redc k.W x = y := by
  have hcop : Nat.gcd c.p (c.R k.W) = 1 := (Nat.gcd_comm _ _).trans h.gcd_R
  have hmod : c.redc k.W x ≡ y [MOD c.p] :=
    Nat.ModEq.cancel_right_of_coprime hcop ((h.redc_mul_R x).trans hxy.symm)
  exact hmod.eq_of_lt_of_lt (h.redc_lt hx) hy

/-- R111's closed form. -/
theorem Context.Valid.redc_eq_mul_invMod (h : Context.Valid k c) (hx : x < c.R k.W * c.p) :
    c.redc k.W x = x * invMod c.R1 c.p % c.p :=
  h.redc_eq hx (Nat.mod_lt _ h.p_pos) (h.invMod_R1_mul_R x)

theorem Context.Valid.lt_R_mul_p (h : Context.Valid k c) (hk : k.wf) (ha : a < c.p) : a < c.R k.W * c.p :=
  ha.trans_le (Nat.le_mul_of_pos_left _ (h.p_pos.trans (h.lt_R hk)))

/-- Domain entry is in `redc`'s domain (R112). -/
theorem Context.Valid.mul_R2_lt (h : Context.Valid k c) (hx : x < c.R k.W) : x * c.R2 < c.R k.W * c.p :=
  Nat.mul_lt_mul'' hx h.R2_lt

/-- Domain entry gives the representation (R116, R131). -/
theorem Context.Valid.redc_mul_R2 (h : Context.Valid k c) (hx : x < c.R k.W) :
    c.redc k.W (x * c.R2) = x * c.R k.W % c.p := by
  refine h.redc_eq (h.mul_R2_lt hx) (Nat.mod_lt _ h.p_pos) ?_
  calc x * c.R k.W % c.p * c.R k.W ≡ x * c.R k.W * c.R k.W [MOD c.p] := (Nat.mod_modEq _ _).mul_right _
    _ = x * c.R k.W ^ 2 := by ring
    _ ≡ x * c.R2 [MOD c.p] := h.R2_modEq.symm.mul_left x

/-- The product of two representations reduces to the representation of the product of the logical values (R116). -/
theorem Context.Valid.logical_redc_mul (h : Context.Valid k c) (hk : k.wf) (ha : a < c.p) (hb : b < c.p) :
    logical c (c.redc k.W (a * b)) = logical c a * logical c b % c.p := by
  rw [h.redc_eq_mul_invMod (h.mul_lt hk ha hb), logical, logical, logical, ← Nat.mul_mod, Nat.mod_mul_mod]
  congr 1
  ring

/-- `R1` is the identity of Montgomery multiplication (R113 (b)). -/
theorem Context.Valid.redc_mul_R1 (h : Context.Valid k c) (hk : k.wf) (ha : a < c.p) : c.redc k.W (a * c.R1) = a :=
  h.redc_eq (h.mul_lt hk ha h.R1_lt) ha (h.R1_modEq.symm.mul_left a)

/-- Opposite residues have one square. -/
theorem mul_self_modEq_of_add_eq {p : Nat} (h : a + b = p) : a * a ≡ b * b [MOD p] := by
  subst h
  exact Nat.modEq_iff_dvd.2 ⟨(b : Int) - a, by push_cast; ring⟩

/-- The square of `p - R1`, logical `-1`, is `R1` (R114 (c)). -/
theorem Context.Valid.redc_mul_self_of_add_R1 (h : Context.Valid k c) (hk : k.wf) (ha : a < c.p)
    (hsum : a + c.R1 = c.p) : c.redc k.W (a * a) = c.R1 :=
  h.redc_eq (h.mul_lt hk ha ha) h.R1_lt
    ((h.R1_modEq.symm.mul_left _).trans (mul_self_modEq_of_add_eq hsum).symm)

end reduction

/-- Settles O31: the passes keep the accumulator times their power of `2^W` congruent to `x` and end below `2p`. -/
theorem redcDividesByR : Obligations.RedcDividesByR := by
  unfold Obligations.RedcDividesByR
  intro k c x _ h hx
  exact ⟨h.redcLoop_lt hx, h.redc_eq_mul_invMod hx, h.redc_lt hx⟩

/-- Settles O32, from `p < R` and `R2 < p`. -/
theorem redcCallSitesAreInDomain : Obligations.RedcCallSitesAreInDomain := by
  unfold Obligations.RedcCallSitesAreInDomain
  intro k c hk h
  exact ⟨fun a b => h.mul_lt hk, fun a => h.lt_R_mul_p hk, fun x => h.mul_R2_lt, fun y hy => h.mul_lt hk hy h.R2_lt⟩

/-- Settles O33: each result is canonical, and its product with `R` is the argument modulo `p`. -/
theorem montgomeryProductIdentity : Obligations.MontgomeryProductIdentity := by
  unfold Obligations.MontgomeryProductIdentity
  intro k c hk h
  have hlt (x : Nat) : x * c.R k.W % c.p < c.p := Nat.mod_lt _ h.p_pos
  refine ⟨fun x y => ?_, fun x hx => ?_, fun x hx => h.redc_mul_R2 hx⟩
  · refine h.redc_eq (h.mul_lt hk (hlt x) (hlt y)) (hlt _) ?_
    calc x * y * c.R k.W % c.p * c.R k.W ≡ x * y * c.R k.W * c.R k.W [MOD c.p] := (Nat.mod_modEq _ _).mul_right _
      _ = x * c.R k.W * (y * c.R k.W) := by ring
      _ ≡ x * c.R k.W % c.p * (y * c.R k.W % c.p) [MOD c.p] :=
          ((Nat.mod_modEq _ _).mul (Nat.mod_modEq _ _)).symm
  · exact h.redc_eq (h.lt_R_mul_p hk (hlt x)) hx (Nat.mod_modEq _ _).symm

/-! ## Commands of formats RRR and RR -/

section formats
variable {s : State} {i : Instr} {vd va vb : Index}

theorem inRange_pair : inRange s [va, vb] ↔ va.toNat < s.cfg.nV ∧ vb.toNat < s.cfg.nV := by simp [inRange]

theorem inRange_triple :
    inRange s [vd, va, vb] ↔ vd.toNat < s.cfg.nV ∧ va.toNat < s.cfg.nV ∧ vb.toNat < s.cfg.nV := by simp [inRange]

/-- A command whose checks begin with those of format RRR fails as its operands say (R78, steps 2, 3 and 5). -/
theorem binaryErrors_of_formatRRR {f : Value × Value → Except ErrorCode State}
    (hexec : exec i s = s.complete (formatRRR s vd va vb >>= f)) : binaryErrors i s [vd, va, vb] va vb := by
  simp only [binaryErrors, failsWith, failed_eq_fail, hexec, inRange_triple]
  refine ⟨fun hout => ?_, fun ⟨hd, h1, h2⟩ hnone => ?_, fun ⟨hd, h1, h2⟩ a b ha hb hne => ?_⟩
  · exact complete_bind_error (formatRRR_illegal (by omega))
  · exact complete_bind_error ((formatRRR_of_range hd).trans (formatSS_unwritten h1 h2 hnone))
  · exact complete_bind_error ((formatRRR_of_range hd).trans (formatSS_mismatched h1 h2 ha hb hne))

/-- A command whose checks begin with those of format RR fails as its operands say (R78, steps 2 and 3). -/
theorem unaryErrors_of_formatRR {f : Value → Except ErrorCode State}
    (hexec : exec i s = s.complete (formatRR s vd va >>= f)) : unaryErrors i s [vd, va] va := by
  simp only [unaryErrors, failsWith, failed_eq_fail, hexec, inRange_pair]
  refine ⟨fun hout => ?_, fun ⟨hd, ha⟩ hnone => ?_⟩
  · exact complete_bind_error (formatRR_illegal (by omega))
  · exact complete_bind_error (formatRR_unwritten hd ha hnone)

/-- With one source twice, format RRR answers as format RR does: one context is no mismatch. -/
theorem formatRRR_self (s : State) (vd va : Index) :
    formatRRR s vd va va = (formatRR s vd va >>= fun a => .ok (a, a)) := by
  rcases needReg_cases s vd with ⟨-, ed⟩ | ⟨-, ed⟩
  · rcases needReg_cases s va with ⟨-, ea⟩ | ⟨-, ea⟩
    · cases hs : sourceReg s va <;> simp [formatRRR, formatRR, ed, ea, hs]
    · simp [formatRRR, formatRR, ed, ea]
  · simp [formatRRR, formatRR, ed]

end formats

/-! ## MUL and SQR (R113, R114) -/

/-- Settles O44: MUL's checks are format RRR's, its result is `redc` of the product. -/
theorem mulIsMontgomeryMultiplication : Obligations.MulIsMontgomeryMultiplication := by
  unfold Obligations.MulIsMontgomeryMultiplication
  intro s vd va vb hinv
  refine ⟨decode_encode (.mul vd va vb), binaryErrors_of_formatRRR rfl, ?_⟩
  intro a b k hr ha hb hab hk
  have hvalid := hinv.context_valid hk
  have hwf := hinv.wf
  have hav : a.v < k.p := hinv.value_lt ha hk
  have hbv : b.v < k.p := hinv.value_lt hb (hab ▸ hk)
  have hdom := hvalid.mul_lt hwf hav hbv
  have hops : formatRRR s vd va vb = .ok (a, b) :=
    formatRRR_ok_iff.2 ⟨inRange_triple.1 hr, ha, hb, hab⟩
  refine ⟨_, exec_of_effect (.mul vd va vb a b k hops hk), rfl, hvalid.redc_lt hdom,
    hvalid.redc_eq_mul_invMod hdom, hvalid.logical_redc_mul hwf hav hbv, fun h1 => ?_, fun h1 => ?_⟩
  · rw [h1, Nat.mul_comm, hvalid.redc_mul_R1 hwf hbv]
  · rw [h1, hvalid.redc_mul_R1 hwf hav]

/-- SQR is MUL of a register by itself, failures included (R114 (e)). -/
theorem exec_sqr_eq_mul (s : State) (vd va : Index) : exec (.sqr vd va) s = exec (.mul vd va va) s := by
  simp only [exec, execSqr, execMul, formatRRR_self, bind_assoc, ok_bind]

/-- Settles O45: what MUL of a register by itself does, and the square of `p - R1`. -/
theorem sqrIsMontgomerySquaring : Obligations.SqrIsMontgomerySquaring := by
  unfold Obligations.SqrIsMontgomerySquaring
  intro s vd va hinv
  refine ⟨decode_encode (.sqr vd va), unaryErrors_of_formatRR rfl, exec_sqr_eq_mul s vd va, ?_⟩
  intro a k hr ha hk
  obtain ⟨hvd, hva⟩ := inRange_pair.1 hr
  obtain ⟨-, -, hmul⟩ := mulIsMontgomeryMultiplication s vd va va hinv
  obtain ⟨v, hexec, hv, hlt, hclosed, hlog, hone, -⟩ := hmul a a k (inRange_triple.2 ⟨hvd, hva, hva⟩) ha ha rfl hk
  refine ⟨v, (exec_sqr_eq_mul s vd va).trans hexec, hv, hlt, hclosed, hlog, fun h1 => (hone h1).trans h1, ?_⟩
  intro hneg
  rw [hv, (hinv.context_valid hk).redc_mul_self_of_add_R1 hinv.wf (hinv.value_lt ha hk) hneg]

/-! ## The arguments of `redc` (R112) -/

/-- The bytes of a serialization, most significant first, are the number modulo what they can hold (R11). -/
theorem foldl_bigEndian (x L : Nat) :
    (bigEndian x L).foldl (fun n b => n * 256 + b.toNat) 0 = x % 2 ^ (8 * L) := by
  induction L generalizing x with
  | zero => simp [bigEndian, Nat.mod_one]
  | succ L ih =>
    have hsplit : bigEndian x (L + 1) = bigEndian (x / 2 ^ 8) L ++ [BitVec.ofNat 8 x] := by
      simp only [bigEndian, List.range_succ, List.map_append, List.map_cons, List.map_nil]
      congr 1
      · refine List.map_congr_left fun j hj => ?_
        have hj := List.mem_range.1 hj
        rw [Nat.div_div_eq_div_mul, ← Nat.pow_add, show 8 + 8 * (L - 1 - j) = 8 * (L + 1 - 1 - j) by omega]
      · simp
    rw [hsplit, List.foldl_append, ih, Nat.mul_succ, Nat.add_comm, Nat.pow_add, Nat.mod_mul]
    simp only [List.foldl_cons, List.foldl_nil, BitVec.toNat_ofNat]
    omega

/-- A modulus fits the bytes of its serialization (R161). -/
theorem lt_two_pow_bytes (p : Nat) : p < 2 ^ (8 * ceilDiv (bitlen p) 8) := by
  rw [← bitlen_le_iff, Nat.mul_comm]
  exact ceilDiv_mul_ge (by decide)

section arguments
variable {s t : State} {i : Instr}

/-- BOUT's first `L` bytes decode to the number serialized in `L` bytes, when they can hold it (R161). -/
theorem State.foldl_take_setBout (s : State) {x L : Nat} (hx : x < 2 ^ (8 * L)) :
    ((s.setBout x L).bout.take L).foldl (fun n b => n * 256 + b.toNat) 0 = x := by
  rw [State.setBout_bout, List.take_left' (bigEndian_length x L), foldl_bigEndian, Nat.mod_eq_of_lt hx]

/-- DOUT decodes to the number written to it, when `N_MAX` words can hold it (R11, R160). -/
theorem State.intOf_setDout (s : State) {x : Nat} (hx : x < s.cfg.limit) (n : Nat) :
    intOf s.cfg.W (s.setDout x n).dout = x := by
  rw [State.setDout_dout, intOf_wordsOf]
  exact Nat.mod_eq_of_lt hx

/-- A command that ends with ERR = 0 has had its effect (R190). -/
theorem effect_of_err_zero (h : exec i s = .next t) (h0 : t.err = 0) : ∃ u, Effect s i u ∧ t = u.succeed := by
  obtain ⟨e, rfl⟩ | hu := exec_cases h
  · exact absurd h0 e.ofNat_code_ne_zero
  · exact hu

/-- A register in range reads back what a succeeding command wrote to it. -/
theorem State.Inv.valueAt_written (h : s.Inv) {r : Nat} (hr : r < s.cfg.nV) (o : Option Value) :
    (s.setValue r o).succeed.valueAt r = o := by
  obtain ⟨-, ⟨⟨-, hlen⟩, -⟩, -⟩ := h
  exact s.valueAt_setValue_same (hlen ▸ hr) o

/-! Each command that hands an argument to `redc`, when it succeeds: the argument is in R112's domain, and what the
command wrote is `redc` of it. -/

variable {vd va vb ctx : Index} {a b : Value} {k : Context}

theorem vnew_redc (hinv : s.Inv) (h0 : t.err = 0) (hk : s.contextAt ctx.toNat = some k)
    (h : exec (.vnew vd ctx true) s = .next t) :
    s.dinInt * k.R2 < k.R s.cfg.W * k.p ∧
      t.valueAt vd.toNat = some ⟨ctx.toNat, k.redc s.cfg.W (s.dinInt * k.R2)⟩ := by
  obtain ⟨u, hu, rfl⟩ := effect_of_err_zero h h0
  cases hu with
  | vnewEnter _ _ k' range _ valid small =>
    cases hk.symm.trans valid
    exact ⟨(hinv.context_valid hk).mul_R2_lt small, hinv.valueAt_written range _⟩

theorem mul_redc (hinv : s.Inv) (h0 : t.err = 0) (ha : s.valueAt va.toNat = some a)
    (hb : s.valueAt vb.toNat = some b) (hk : s.contextAt a.ctx = some k) (h : exec (.mul vd va vb) s = .next t) :
    a.v * b.v < k.R s.cfg.W * k.p ∧ t.valueAt vd.toNat = some ⟨a.ctx, k.redc s.cfg.W (a.v * b.v)⟩ := by
  obtain ⟨u, hu, rfl⟩ := effect_of_err_zero h h0
  cases hu with
  | mul _ _ _ a' b' k' ops valid =>
    obtain ⟨⟨range, -⟩, ha', hb', -⟩ := formatRRR_ok_iff.1 ops
    cases ha.symm.trans ha'
    cases hb.symm.trans hb'
    cases hk.symm.trans valid
    obtain ⟨hav, hbv⟩ := hinv.operands_RRR ops hk
    exact ⟨(hinv.context_valid hk).mul_lt hinv.wf hav hbv, hinv.valueAt_written range _⟩

theorem inv_redc (hinv : s.Inv) (h0 : t.err = 0) (ha : s.valueAt va.toNat = some a)
    (hk : s.contextAt a.ctx = some k) (h : exec (.inv vd va) s = .next t) :
    a.v < k.R s.cfg.W * k.p ∧ invMod (k.redc s.cfg.W a.v) k.p * k.R2 < k.R s.cfg.W * k.p ∧
      t.valueAt vd.toNat = some ⟨a.ctx, k.redc s.cfg.W (invMod (k.redc s.cfg.W a.v) k.p * k.R2)⟩ := by
  have hvalid := hinv.context_valid hk
  obtain ⟨u, hu, rfl⟩ := effect_of_err_zero h h0
  cases hu with
  | inv _ _ a' k' ops valid _ =>
    obtain ⟨⟨range, -⟩, ha'⟩ := formatRR_ok_iff.1 ops
    cases ha.symm.trans ha'
    cases hk.symm.trans valid
    have hlt : invMod (k.redc s.cfg.W a.v) k.p < k.p := (invMod_spec hvalid.one_lt).1
    exact ⟨hvalid.lt_R_mul_p hinv.wf (hinv.value_lt ha hk), hvalid.mul_lt hinv.wf hlt hvalid.R2_lt,
      hinv.valueAt_written range _⟩

theorem value_redc (hinv : s.Inv) (h0 : t.err = 0) (ha : s.valueAt va.toNat = some a)
    (hk : s.contextAt a.ctx = some k) (h : exec (.value va) s = .next t) :
    a.v < k.R s.cfg.W * k.p ∧ intOf s.cfg.W t.dout = k.redc s.cfg.W a.v := by
  have hvalid := hinv.context_valid hk
  have hdom := hvalid.lt_R_mul_p hinv.wf (hinv.value_lt ha hk)
  obtain ⟨u, hu, rfl⟩ := effect_of_err_zero h h0
  cases hu with
  | value _ a' k' ops valid =>
    cases ha.symm.trans (formatS_ok_iff.1 ops).2
    cases hk.symm.trans valid
    exact ⟨hdom, s.intOf_setDout ((hvalid.redc_lt hdom).trans hvalid.lt_limit) k.pWords⟩

theorem ser_redc (hinv : s.Inv) (h0 : t.err = 0) (ha : s.valueAt va.toNat = some a)
    (hk : s.contextAt a.ctx = some k) (h : exec (.ser va) s = .next t) :
    a.v < k.R s.cfg.W * k.p ∧
      (t.bout.take ((bitlen k.p + 7) / 8)).foldl (fun n b => n * 256 + b.toNat) 0 = k.redc s.cfg.W a.v := by
  have hvalid := hinv.context_valid hk
  have hdom := hvalid.lt_R_mul_p hinv.wf (hinv.value_lt ha hk)
  obtain ⟨u, hu, rfl⟩ := effect_of_err_zero h h0
  cases hu with
  | ser _ a' k' ops valid =>
    cases ha.symm.trans (formatS_ok_iff.1 ops).2
    cases hk.symm.trans valid
    exact ⟨hdom, s.foldl_take_setBout ((hvalid.redc_lt hdom).trans (lt_two_pow_bytes k.p))⟩

end arguments

/-- Settles O59: what a succeeding command reads is canonical, so that R112's bounds hold; SQR is MUL of a register by
itself. -/
theorem redcArgumentsOfCommandsAreInDomain : Obligations.RedcArgumentsOfCommandsAreInDomain := by
  unfold Obligations.RedcArgumentsOfCommandsAreInDomain
  intro s t hinv h0
  refine ⟨fun _ _ _ hk => vnew_redc hinv h0 hk, fun _ _ _ _ _ _ ha hb hk => mul_redc hinv h0 ha hb hk,
    fun vd va a k ha hk => ⟨fun h => ?_, inv_redc hinv h0 ha hk, value_redc hinv h0 ha hk, ser_redc hinv h0 ha hk⟩⟩
  exact mul_redc hinv h0 ha ha hk ((exec_sqr_eq_mul s vd va).symm.trans h)

end Sys2Proof.Machine
end

section
/-! PROOFS. Family 42_inverse.md: the routes to an inverse (O36), the command INV (O46), and the law that a value times
its inverse is one (O58). -/

namespace Sys2Proof.Machine

open Sys2Proof.Claims

/-! ## `inv_mod` (R12) -/

section invMod
variable {x y m : Nat}

theorem mul_invMod_modEq (hm : 1 < m) (h : Nat.gcd x m = 1) : x * invMod x m ≡ 1 [MOD m] := by
  rw [Nat.ModEq, mul_invMod hm h, Nat.mod_eq_of_lt hm]

/-- The canonical number that inverts `x` is `inv_mod(x, m)`. -/
theorem invMod_eq_of_mul_modEq_one (hm : 1 < m) (hy : y < m) (hxy : x * y ≡ 1 [MOD m]) : invMod x m = y := by
  have hg : Nat.gcd x m = 1 := Nat.coprime_of_mul_modEq_one y hxy
  obtain ⟨-, hunique⟩ := invModIsTheUniqueInverse x m hm hg
  exact (hunique y hy (Eq.trans hxy (Nat.mod_eq_of_lt hm))).symm

/-- Inverting twice gives a canonical number back. -/
theorem invMod_invMod (hm : 1 < m) (hx : x < m) (h : Nat.gcd x m = 1) : invMod (invMod x m) m = x :=
  invMod_eq_of_mul_modEq_one hm hx (Nat.mul_comm x _ ▸ mul_invMod_modEq hm h)

end invMod

/-! ## Leaving and entering the domain around an inversion (R125, R126) -/

section routes
variable {k : Config} {c : Context} {v y : Nat}

theorem Context.Valid.R3_lt (h : Context.Valid k c) : c.R3 < c.p := by
  have hpos := h.p_pos
  obtain ⟨-, -, -, -, -, h3⟩ := h
  exact h3 ▸ Nat.mod_lt _ hpos

theorem Context.Valid.R3_modEq (h : Context.Valid k c) : c.R3 ≡ c.R k.W ^ 3 [MOD c.p] := by
  obtain ⟨-, -, -, -, -, h3⟩ := h
  exact h3 ▸ Nat.mod_modEq _ _

theorem Context.Valid.invMod_lt (h : Context.Valid k c) (x : Nat) : invMod x c.p < c.p := (invMod_spec h.one_lt).1

/-- `redc` of a representation is its logical value (R26, R111). -/
theorem Context.Valid.redc_eq_logical (h : Context.Valid k c) (hk : k.wf) (hv : v < c.p) :
    c.redc k.W v = logical c v :=
  h.redc_eq_mul_invMod (h.lt_R_mul_p hk hv)

/-- `R` is a unit, so leaving the domain keeps the gcd with `p` (R125 (e)). -/
theorem Context.Valid.gcd_redc (h : Context.Valid k c) (v : Nat) : Nat.gcd (c.redc k.W v) c.p = Nat.gcd v c.p :=
  calc Nat.gcd (c.redc k.W v) c.p = Nat.gcd (c.redc k.W v * c.R k.W) c.p :=
        (Nat.Coprime.gcd_mul_right_cancel _ h.gcd_R).symm
    _ = Nat.gcd v c.p := (h.redc_mul_R v).gcd_eq

/-- Domain entry of a canonical number, in closed form (R131). -/
theorem Context.Valid.enter_eq (h : Context.Valid k c) (hk : k.wf) (hy : y < c.p) :
    c.enter k.W y = y * c.R k.W % c.p :=
  h.redc_mul_R2 (hy.trans (h.lt_R hk))

theorem Context.Valid.logical_enter (h : Context.Valid k c) (hk : k.wf) (hy : y < c.p) :
    logical c (c.enter k.W y) = y := by
  obtain ⟨hleft, -⟩ := representationIsABijection k c hk h
  rw [h.enter_eq hk hy, hleft y hy]

theorem Context.Valid.logical_lt (h : Context.Valid k c) (v : Nat) : logical c v < c.p := Nat.mod_lt _ h.p_pos

theorem Context.Valid.enter_logical (h : Context.Valid k c) (hk : k.wf) (hv : v < c.p) :
    c.enter k.W (logical c v) = v := by
  obtain ⟨-, hright⟩ := representationIsABijection k c hk h
  obtain ⟨hlt, hback⟩ := hright v hv
  rw [h.enter_eq hk hlt, hback]

/-- The inverse of the logical value is the inverse of the representation, times `R` (R126). -/
theorem Context.Valid.invMod_redc_modEq (h : Context.Valid k c) (hg : Nat.gcd v c.p = 1) :
    invMod (c.redc k.W v) c.p ≡ invMod v c.p * c.R k.W [MOD c.p] := by
  have hinv : c.redc k.W v * (invMod v c.p * c.R k.W % c.p) ≡ 1 [MOD c.p] :=
    calc c.redc k.W v * (invMod v c.p * c.R k.W % c.p)
          ≡ c.redc k.W v * (invMod v c.p * c.R k.W) [MOD c.p] := (Nat.mod_modEq _ _).mul_left _
      _ = c.redc k.W v * c.R k.W * invMod v c.p := by ring
      _ ≡ v * invMod v c.p [MOD c.p] := (h.redc_mul_R v).mul_right _
      _ ≡ 1 [MOD c.p] := mul_invMod_modEq h.one_lt hg
  rw [invMod_eq_of_mul_modEq_one h.one_lt (Nat.mod_lt _ h.p_pos) hinv]
  exact Nat.mod_modEq _ _

/-- The route by R3 takes the representation's own inverse to INV's result (R126). -/
theorem Context.Valid.redc_invMod_mul_R3 (h : Context.Valid k c) (hk : k.wf) (hg : Nat.gcd v c.p = 1) :
    c.redc k.W (invMod v c.p * c.R3) = c.enter k.W (invMod (c.redc k.W v) c.p) := by
  have hx := h.invMod_lt (c.redc k.W v)
  refine h.redc_eq (h.mul_lt hk (h.invMod_lt v) h.R3_lt) (h.enter_lt (hx.trans (h.lt_R hk))) ?_
  calc c.enter k.W (invMod (c.redc k.W v) c.p) * c.R k.W
        ≡ invMod (c.redc k.W v) c.p * c.R2 [MOD c.p] := h.redc_mul_R _
    _ ≡ invMod v c.p * c.R k.W * c.R k.W ^ 2 [MOD c.p] := (h.invMod_redc_modEq hg).mul h.R2_modEq
    _ = invMod v c.p * c.R k.W ^ 3 := by ring
    _ ≡ invMod v c.p * c.R3 [MOD c.p] := h.R3_modEq.symm.mul_left _

/-- The Montgomery product of a representation and the entered inverse of its logical value is `R1`, logical one
(R125 (g)). -/
theorem Context.Valid.redc_mul_enter_invMod (h : Context.Valid k c) (hk : k.wf) (hv : v < c.p)
    (hg : Nat.gcd v c.p = 1) : c.redc k.W (v * c.enter k.W (invMod (c.redc k.W v) c.p)) = c.R1 := by
  have hgx : Nat.gcd (c.redc k.W v) c.p = 1 := (h.gcd_redc v).trans hg
  have hlt := h.enter_lt ((h.invMod_lt (c.redc k.W v)).trans (h.lt_R hk))
  refine h.redc_eq (h.mul_lt hk hv hlt) h.R1_lt ?_
  have henter : c.enter k.W (invMod (c.redc k.W v) c.p) ≡ invMod (c.redc k.W v) c.p * c.R k.W [MOD c.p] := by
    rw [h.enter_eq hk (h.invMod_lt _)]
    exact Nat.mod_modEq _ _
  calc c.R1 * c.R k.W ≡ c.R k.W * c.R k.W [MOD c.p] := h.R1_modEq.mul_right _
    _ = 1 * (c.R k.W * c.R k.W) := (Nat.one_mul _).symm
    _ ≡ c.redc k.W v * invMod (c.redc k.W v) c.p * (c.R k.W * c.R k.W) [MOD c.p] :=
        (mul_invMod_modEq h.one_lt hgx).symm.mul_right _
    _ = c.redc k.W v * c.R k.W * (invMod (c.redc k.W v) c.p * c.R k.W) := by ring
    _ ≡ v * c.enter k.W (invMod (c.redc k.W v) c.p) [MOD c.p] := (h.redc_mul_R v).mul henter.symm

end routes

/-- Settles O36: `redc` divides by `R`, a unit modulo `p`, so each route's result times `R` is one residue. -/
theorem inverseRoutesAgree : Obligations.InverseRoutesAgree := by
  unfold Obligations.InverseRoutesAgree
  intro k c v hk h _
  exact ⟨h.gcd_redc v, fun hg => ⟨h.enter_eq hk (h.invMod_lt _), (h.redc_invMod_mul_R3 hk hg).symm⟩⟩

/-! ## INV (R125) -/

section inv
variable {s : State} {vd va : Index} {a : Value} {k : Context}

/-- Step 6 of R78 for INV: a logical value that is no unit has no inverse. -/
theorem exec_inv_notInvertible (hops : formatRR s vd va = .ok a) (hk : s.contextAt a.ctx = some k)
    (hg : Nat.gcd (k.redc s.cfg.W a.v) k.p ≠ 1) : exec (.inv vd va) s = .next (s.fail .notInvertible) := by
  simp [exec, execInv, hops, fieldsOf_ok_iff.2 hk, invRepresentation, hg]

end inv

/-- Settles O46: INV's checks are format RR's and the gcd; its result is the entered inverse of the logical value. -/
theorem invIsMultiplicativeInverse : Obligations.InvIsMultiplicativeInverse := by
  unfold Obligations.InvIsMultiplicativeInverse
  intro s vd va hinv
  refine ⟨decode_encode (.inv vd va), unaryErrors_of_formatRR rfl, ?_⟩
  intro a k hr ha hk
  have hvalid := hinv.context_valid hk
  have hwf := hinv.wf
  have hp := hvalid.one_lt
  have hav : a.v < k.p := hinv.value_lt ha hk
  have hops : formatRR s vd va = .ok a := formatRR_ok_iff.2 ⟨inRange_pair.1 hr, ha⟩
  have hleave : k.redc s.cfg.W a.v = logical k a.v := hvalid.redc_eq_logical hwf hav
  have hgcd : Nat.gcd (logical k a.v) k.p = Nat.gcd a.v k.p := hleave ▸ hvalid.gcd_redc a.v
  have hnone (hg : Nat.gcd (logical k a.v) k.p ≠ 1) : failsWith (.inv vd va) s .notInvertible := by
    rw [failsWith, failed_eq_fail]
    exact exec_inv_notInvertible hops hk (hleave ▸ hg)
  refine ⟨hleave, hgcd, hnone, fun h0 => hnone ?_, fun hg => ?_⟩
  · rw [hgcd, h0, Nat.gcd_zero_left]
    exact hp.ne'
  · have hx := hvalid.logical_lt a.v
    have hy := hvalid.invMod_lt (logical k a.v)
    have hback := hvalid.logical_enter hwf hy
    have hexec := exec_of_effect (.inv vd va a k hops hk (hleave ▸ hg))
    have hone := hvalid.redc_mul_enter_invMod hwf hav (hgcd ▸ hg)
    rw [hleave] at hexec hone
    refine ⟨k.enter s.cfg.W (invMod (logical k a.v) k.p), hexec, rfl,
      hvalid.enter_lt (hy.trans (hvalid.lt_R hwf)), hback, ?_, hone, ?_⟩
    · rw [hback, mul_invMod hp hg]
    · rw [hback, invMod_invMod hp hx hg]
      exact hvalid.enter_logical hwf hav

/-! ## INV, MUL, ISONE (95_test_vectors.md 1.1, law 3) -/

/-- Two values whose Montgomery product is `R1`: MUL writes it, and ISONE of the product sets T. -/
theorem exec_mul_then_isone {s : State} {vd va vb : Index} {a b : Value} {k : Context} (hinv : s.Inv)
    (hops : formatRRR s vd va vb = .ok (a, b)) (hk : s.contextAt a.ctx = some k)
    (hone : k.redc s.cfg.W (a.v * b.v) = k.R1) :
    ∃ u w, exec (.mul vd va vb) s = .next u ∧ exec (.isone vd) u = .next w ∧ w.t = true ∧ w.err = 0 := by
  obtain ⟨⟨hvd, -, -⟩, -⟩ := formatRRR_ok_iff.1 hops
  refine ⟨_, _, exec_of_effect (.mul vd va vb a b k hops hk),
    exec_of_effect (.isone vd ⟨a.ctx, k.redc s.cfg.W (a.v * b.v)⟩ k ?_ hk), ?_, rfl⟩
  · exact formatS_ok_iff.2 ⟨hvd, hinv.valueAt_written hvd _⟩
  · simp [testOne, hone]

/-- Settles O58: INV leaves the value's own register as it was, so that MUL reads a value and its inverse. -/
theorem valueTimesInverseIsOne : Obligations.ValueTimesInverseIsOne := by
  unfold Obligations.ValueTimesInverseIsOne
  intro s va vi vd a k hinv hr hne ha hk hg
  obtain ⟨hva, hvi, hvd⟩ := inRange_triple.1 hr
  obtain ⟨-, -, hspec⟩ := invIsMultiplicativeInverse s vi va hinv
  obtain ⟨-, hgcd, -, -, hsucc⟩ := hspec a k (inRange_pair.2 ⟨hvi, hva⟩) ha hk
  obtain ⟨v, hexec, -, hlt, -, -, hone, -⟩ := hsucc (hgcd.trans hg)
  have hinv' : (wrote s vi a.ctx v).Inv := (hinv.setValue_some hk hlt).succeed
  have hkeep : (wrote s vi a.ctx v).valueAt va.toNat = some a :=
    (s.valueAt_setValue_other (fun h => hne (BitVec.eq_of_toNat_eq h.symm)) _).trans ha
  have hnew : (wrote s vi a.ctx v).valueAt vi.toNat = some ⟨a.ctx, v⟩ := hinv.valueAt_written hvi _
  have hops : formatRRR (wrote s vi a.ctx v) vd va vi = .ok (a, ⟨a.ctx, v⟩) :=
    formatRRR_ok_iff.2 ⟨⟨hvd, hva, hvi⟩, hkeep, hnew, rfl⟩
  obtain ⟨u, w, hmul, hisone, ht, herr⟩ := exec_mul_then_isone hinv' hops hk hone
  exact ⟨_, u, w, hexec, hmul, hisone, ht, herr⟩

end Sys2Proof.Machine
end

section
/-! PROOFS. Family 43_value_lifecycle.md: VNEW (O38), VFREE (O39), FIXSZ (O40), and the law that domain entry and then
domain exit give an integer back modulo `p` (O57). -/

namespace Sys2Proof.Machine

open Sys2Proof.Claims

/-! ## VNEW (R130) -/

section vnew
variable {s : State} {vd ctx : Index} {k : Context}

/-- A non-zero bit in `c[7:1]` makes a VNEW word no command (R75, R130). -/
theorem decode_vnew_reserved {rb : Byte} (h : rb &&& 0xFE ≠ 0) :
    decode (pack 0x02 vd ctx rb) = .error (.reservedField 0x02) := by
  simp only [decode, fieldOp_pack, fieldRb_pack, withZeros]
  exact if_neg (by simpa using h)

/-- Step 6 of R78 for VNEW without domain entry: a representation is below `p`. -/
theorem exec_vnew_malformed (hops : formatN s vd ctx = .ok k) (hx : k.p ≤ s.dinInt) :
    exec (.vnew vd ctx false) s = .next (s.fail .malformedRepresentation) := by
  simp [exec, execVnew, hops, newRepresentation, hx]

/-- Step 6 of R78 for VNEW with domain entry: the integer is below `R`. -/
theorem exec_vnew_operandRange (hops : formatN s vd ctx = .ok k) (hx : k.R s.cfg.W ≤ s.dinInt) :
    exec (.vnew vd ctx true) s = .next (s.fail .operandRange) := by
  simp [exec, execVnew, hops, newRepresentation, hx]

/-- The representation of any integer has the integer's residue as its logical value (R26, R130 (a)). -/
theorem Context.Valid.logical_mul_R {g : Config} (h : Context.Valid g k) (hg : g.wf) (x : Nat) :
    logical k (x * k.R g.W % k.p) = x % k.p := by
  obtain ⟨hleft, -⟩ := representationIsABijection g k hg h
  rw [← hleft (x % k.p) (Nat.mod_lt _ h.p_pos), Nat.mod_mul_mod]

end vnew

/-- Settles O38: the checks of format N in their order, VNEW's own check, and the number itself or its representation. -/
theorem newConstructsAValue : Obligations.NewConstructsAValue := by
  unfold Obligations.NewConstructsAValue
  intro s vd ctx e hinv
  simp only [failsWith, failed_eq_fail]
  refine ⟨decode_encode (.vnew vd ctx e), fun rb hrb => ?_, fun hout => ?_, fun hd hc => ⟨fun hnone => ?_, ?_⟩⟩
  · exact hostIssue_of_not_command (fun i hi => nomatch (decode_vnew_reserved hrb).symm.trans hi) s
  · exact complete_bind_error (formatN_illegal hout)
  · exact complete_bind_error (formatN_unwritten hd hc hnone)
  · intro k hk
    have hops : formatN s vd ctx = .ok k := formatN_ok_iff.2 ⟨hd, hc, hk⟩
    have hvalid := hinv.context_valid hk
    refine ⟨?_, ?_, ?_, ?_⟩
    · rintro rfl hx
      exact exec_vnew_malformed hops hx
    · rintro rfl hx
      exact exec_of_effect (.vnewRaw vd ctx k hd hc hk hx)
    · rintro rfl hx
      exact exec_vnew_operandRange hops hx
    · rintro rfl hx
      have henter : k.redc s.cfg.W (s.dinInt * k.R2) = s.dinInt * k.R s.cfg.W % k.p := hvalid.redc_mul_R2 hx
      refine ⟨?_, henter, hvalid.logical_mul_R hinv.wf s.dinInt⟩
      rw [← henter]
      exact exec_of_effect (.vnewEnter vd ctx k hd hc hk hx)

/-! ## VFREE and FIXSZ (R132, R133) -/

section registers
variable {s : State}

/-- Writing back what a register holds, a value or none, changes nothing. -/
theorem State.setValue_self {i : Nat} {o : Option Value} (h : s.valueAt i = o) : s.setValue i o = s := by
  obtain hlt | hge := Nat.lt_or_ge i s.values.length
  · have hi : s.values[i] = o := by simpa [State.valueAt, hlt] using h
    rw [State.setValue, ← hi, List.set_getElem_self]
  · rw [State.setValue, List.set_eq_of_length_le hge]

/-- A context that no other register references is not referenced once the register is freed (R132 (b)). -/
theorem State.Inv.not_referenced_of_freed (h : s.Inv) {r c : Nat} (hr : r < s.cfg.nV)
    (hother : ∀ i a, i ≠ r → s.valueAt i = some a → a.ctx ≠ c) : (s.setValue r none).succeed.referenced c = false := by
  rw [← Bool.not_eq_true, State.referenced_iff]
  rintro ⟨i, a, ha, hc⟩
  by_cases hi : i = r
  · subst hi
    cases (h.valueAt_written hr none).symm.trans ha
  · exact hother i a hi ((s.valueAt_setValue_other (Ne.symm hi) none).symm.trans ha) hc

/-- A command whose checks begin with those of format S fails as its operand says (R78, steps 2 and 3). -/
theorem unaryErrors_of_formatS {i : Instr} {va : Index} {f : Value → Except ErrorCode State}
    (hexec : exec i s = s.complete (formatS s va >>= f)) : unaryErrors i s [va] va := by
  simp only [unaryErrors, failsWith, failed_eq_fail, hexec, inRange, List.forall_mem_singleton, Nat.not_lt]
  exact ⟨fun hout => complete_bind_error (formatS_illegal hout),
    fun hin hnone => complete_bind_error (formatS_unwritten hin hnone)⟩

/-- FIXSZ checks the register it writes as format S checks a source, and writes back the value it reads (R133). -/
theorem exec_fixsz_eq (s : State) (vd : Index) :
    exec (.fixsz vd) s = s.complete (formatS s vd >>= fun a => .ok (s.setValue vd.toNat (some a))) := by
  simp only [exec, execFixsz, formatD, formatS, bind_assoc]

end registers

/-- Settles O39: VFREE's one check is the index; what it writes is no value. -/
theorem freeDestroysAValue : Obligations.FreeDestroysAValue := by
  unfold Obligations.FreeDestroysAValue
  intro s vd hinv
  refine ⟨decode_encode (.vfree vd), fun hout => ?_, fun hd => ?_⟩
  · rw [failsWith, failed_eq_fail]
    exact complete_bind_error (needReg_error_iff.2 ⟨rfl, hout⟩)
  · refine ⟨_, exec_of_effect (.vfree vd hd), rfl, hinv.valueAt_written hd none, fun hnone => ?_,
      fun c hother => ⟨hinv.not_referenced_of_freed hd hother, rfl⟩⟩
    rw [State.setValue_self hnone]
    rfl

/-- Settles O40: FIXSZ writes back the value it reads. -/
theorem fixSizeChangesNothing : Obligations.FixSizeChangesNothing := by
  unfold Obligations.FixSizeChangesNothing
  intro s vd _
  refine ⟨decode_encode (.fixsz vd), unaryErrors_of_formatS (exec_fixsz_eq s vd), fun a hr ha => ?_⟩
  rw [exec_of_effect (.fixsz vd a (hr vd (List.mem_singleton.2 rfl)) ha), State.setValue_self ha]
  rfl

/-! ## VNEW with domain entry, then VALUE (95_test_vectors.md 1.1, laws 2 and 7) -/

/-- VALUE of a valid register writes its logical value to DOUT (R160). -/
theorem exec_value_logical {s : State} {va : Index} {a : Value} {k : Context} (hinv : s.Inv)
    (hva : va.toNat < s.cfg.nV) (ha : s.valueAt va.toNat = some a) (hk : s.contextAt a.ctx = some k) :
    ∃ u, exec (.value va) s = .next u ∧ intOf s.cfg.W u.dout = logical k a.v ∧ u.err = 0 ∧ u.errlog = s.errlog := by
  have hvalid := hinv.context_valid hk
  have hleave := hvalid.redc_eq_logical hinv.wf (hinv.value_lt ha hk)
  refine ⟨_, exec_of_effect (.value va a k (formatS_ok_iff.2 ⟨hva, ha⟩) hk), ?_, rfl, rfl⟩
  rw [hleave]
  exact s.intOf_setDout ((hvalid.logical_lt a.v).trans hvalid.lt_limit) k.pWords

/-- Settles O57: VNEW writes the representation of the integer, and VALUE reads its logical value. -/
theorem enterThenValueReturnsTheInteger : Obligations.EnterThenValueReturnsTheInteger := by
  unfold Obligations.EnterThenValueReturnsTheInteger
  intro s vd ctx k hinv hd hc hk hx
  have hvalid := hinv.context_valid hk
  have hnew : Effect s (.vnew vd ctx true) _ := .vnewEnter vd ctx k hd hc hk hx
  obtain ⟨u, hvalue, hdout, herr, hlog⟩ :=
    exec_value_logical (hnew.keeps_inv hinv).succeed hd (hinv.valueAt_written hd _) hk
  refine ⟨_, u, exec_of_effect hnew, hvalue, hdout.trans ?_, herr, hlog⟩
  rw [Context.enter, hvalid.redc_mul_R2 hx, hvalid.logical_mul_R hinv.wf]

end Sys2Proof.Machine
end

section
/-! PROOFS. Family 44_add_sub_neg.md: ADD (O41), SUB (O42) and NEG (O43) are addition, subtraction and negation modulo
`p`, of the representations and so of the logical values. -/

namespace Sys2Proof.Machine

open Sys2Proof.Claims

/-! ## One conditional correction gives the residue (R140 to R142) -/

section residues
variable {p a b : Nat}

theorem modAdd_eq_mod (ha : a < p) (hb : b < p) : modAdd p a b = (a + b) % p :=
  (Nat.mod_eq_of_lt (modAdd_lt ha hb)).symm.trans subtractOnce_modEq

/-- What SUB adds to a difference below zero is one `p` (R141). -/
theorem modSub_add_modEq (hb : b < p) : modSub p a b + b ≡ a [MOD p] := by
  unfold modSub
  split
  case isTrue hle => rw [Nat.sub_add_cancel hle]
  case isFalse =>
    rw [Nat.sub_add_cancel (by omega)]
    exact Nat.add_mod_right a p

/-- Negation is subtraction from zero. -/
theorem modNeg_eq_modSub_zero : modNeg p a = modSub p 0 a := by simp [modNeg, modSub]

theorem modNeg_add_modEq_zero (ha : a < p) : modNeg p a + a ≡ 0 [MOD p] :=
  modNeg_eq_modSub_zero ▸ modSub_add_modEq ha

/-- Negation is its own inverse on canonical representations (R142 (c)). -/
theorem modNeg_modNeg (ha : a < p) : modNeg p (modNeg p a) = a := by
  obtain rfl | hpos := Nat.eq_zero_or_pos a
  · rfl
  · rw [modNeg, modNeg, if_neg hpos.ne', if_neg (by omega), Nat.sub_sub_self ha.le]

end residues

/-! ## The logical value is additive (R17, R26) -/

section logical
variable {k : Context} {a b : Nat}

theorem logical_congr (h : a ≡ b [MOD k.p]) : logical k a = logical k b := h.mul_right _

theorem logical_add (k : Context) (a b : Nat) : logical k (a + b) = (logical k a + logical k b) % k.p := by
  rw [logical, logical, logical, Nat.add_mul, Nat.add_mod]

@[simp] theorem logical_zero (k : Context) : logical k 0 = 0 := by rw [logical, Nat.zero_mul, Nat.zero_mod]

end logical

/-! ## ADD, SUB and NEG -/

/-- Settles O41: ADD's checks are format RRR's, its result is the residue of the sum. -/
theorem addIsModularAddition : Obligations.AddIsModularAddition := by
  unfold Obligations.AddIsModularAddition
  intro s vd va vb hinv
  refine ⟨decode_encode (.add vd va vb), binaryErrors_of_formatRRR rfl, ?_⟩
  intro a b k hr ha hb hab hk
  have hops : formatRRR s vd va vb = .ok (a, b) := formatRRR_ok_iff.2 ⟨inRange_triple.1 hr, ha, hb, hab⟩
  obtain ⟨hav, hbv⟩ := hinv.operands_RRR hops hk
  exact ⟨_, exec_of_effect (.add vd va vb a b k hops hk), rfl, modAdd_lt hav hbv, modAdd_eq_mod hav hbv,
    (logical_congr subtractOnce_modEq).trans (logical_add k a.v b.v)⟩

/-- Settles O42: SUB's checks are format RRR's, its result and the second source add up to the first. -/
theorem subIsModularSubtraction : Obligations.SubIsModularSubtraction := by
  unfold Obligations.SubIsModularSubtraction
  intro s vd va vb hinv
  refine ⟨decode_encode (.sub vd va vb), binaryErrors_of_formatRRR rfl, ?_⟩
  intro a b k hr ha hb hab hk
  have hops : formatRRR s vd va vb = .ok (a, b) := formatRRR_ok_iff.2 ⟨inRange_triple.1 hr, ha, hb, hab⟩
  obtain ⟨hav, hbv⟩ := hinv.operands_RRR hops hk
  have hsum : modSub k.p a.v b.v + b.v ≡ a.v [MOD k.p] := modSub_add_modEq hbv
  exact ⟨_, exec_of_effect (.sub vd va vb a b k hops hk), rfl, modSub_lt hav hbv,
    Eq.trans hsum (Nat.mod_eq_of_lt hav), (logical_add k _ _).symm.trans (logical_congr hsum)⟩

/-- Settles O43: NEG's checks are format RR's, its result and the source add up to zero. -/
theorem negIsAdditiveInverse : Obligations.NegIsAdditiveInverse := by
  unfold Obligations.NegIsAdditiveInverse
  intro s vd va hinv
  refine ⟨decode_encode (.neg vd va), unaryErrors_of_formatRR rfl, ?_⟩
  intro a k hr ha hk
  have hops : formatRR s vd va = .ok a := formatRR_ok_iff.2 ⟨inRange_pair.1 hr, ha⟩
  have hav : a.v < k.p := hinv.operand_RR hops hk
  have hsum : modNeg k.p a.v + a.v ≡ 0 [MOD k.p] := modNeg_add_modEq_zero hav
  exact ⟨_, exec_of_effect (.neg vd va a k hops hk), rfl, modNeg_lt hav, Eq.trans hsum (Nat.zero_mod _),
    (logical_add k _ _).symm.trans ((logical_congr hsum).trans (logical_zero k)), modNeg_modNeg hav⟩

end Sys2Proof.Machine
end

section
/-! PROOFS. Family 45_small_multiples.md: the small multiples by doubling (O35), and the commands MUL2, MUL3, MUL4 and
MUL8 (O47 to O50), MUL2 being ADD of a register to itself, MUL4 and MUL8 being made of MUL2. -/

namespace Sys2Proof.Machine

open Sys2Proof.Claims

/-! ## The residues of small multiples (R150) -/

section residues
variable {p v x : Nat}

theorem subtractOnce_eq_mod (h : x < 2 * p) : subtractOnce p x = x % p :=
  (Nat.mod_eq_of_lt (subtractOnce_lt h)).symm.trans subtractOnce_modEq

theorem smul_lt (j : Nat) (h : v < p) : smul j v p < p := Nat.mod_lt _ (Nat.zero_lt_of_lt h)

/-- A multiple of a multiple is a multiple by the product: doublings can be chained. -/
theorem smul_smul (i j v p : Nat) : smul i (smul j v p) p = smul (i * j) v p := by
  rw [smul, smul, smul, Nat.mul_mod_mod, Nat.mul_assoc]

theorem double_eq_smul (h : v < p) : double p v = smul 2 v p :=
  calc double p v = subtractOnce p (2 * v) := rfl
    _ = smul 2 v p := subtractOnce_eq_mod (by omega)

theorem triple_eq_smul (h : v < p) : triple p v = smul 3 v p := by
  have hd : smul 2 v p < p := smul_lt 2 h
  calc triple p v = subtractOnce p (double p v + v) := rfl
    _ = (2 * v % p + v) % p := by rw [double_eq_smul h, subtractOnce_eq_mod (by omega), smul]
    _ = smul 3 v p := by rw [Nat.mod_add_mod, smul, Nat.succ_mul 2 v]

theorem modAdd_self_eq_smul (h : v < p) : modAdd p v v = smul 2 v p := by
  rw [modAdd_eq_mod h h, ← Nat.two_mul, smul]

/-- R151 (d): twice a value is never an odd modulus, so that the subtraction is made exactly above it. -/
theorem two_mul_mod_of_odd (hodd : p % 2 = 1) (h : v < p) :
    2 * v ≠ p ∧ 2 * v % p = if p < 2 * v then 2 * v - p else 2 * v := by
  refine ⟨by omega, ?_⟩
  rw [← subtractOnce_eq_mod (by omega), subtractOnce]
  split <;> split <;> omega

/-- R152 (d): none, one or two subtractions give the residue of what is below `3p`. -/
theorem mod_of_lt_three_mul (h : x < 3 * p) :
    x % p = if x < p then x else if x < 2 * p then x - p else x - 2 * p := by
  split
  case isTrue h1 => exact Nat.mod_eq_of_lt h1
  case isFalse h1 =>
    rw [Nat.mod_eq_sub_mod (by omega), ← subtractOnce_eq_mod (by omega), subtractOnce]
    split <;> split <;> omega

/-- The logical value of a multiple is the multiple of the logical value (R17, R26). -/
theorem logical_smul (k : Context) (j v : Nat) : logical k (smul j v k.p) = j * logical k v % k.p :=
  calc logical k (smul j v k.p) = logical k (j * v) := logical_congr (Nat.mod_modEq _ _)
    _ = j * logical k v % k.p := by rw [logical, logical, Nat.mul_mod_mod, Nat.mul_assoc]

end residues

/-- Settles O35: each chain of doublings is a chain of multiples of a canonical value. -/
theorem smallMultiplesByDoubling : Obligations.SmallMultiplesByDoubling := by
  unfold Obligations.SmallMultiplesByDoubling
  refine ⟨fun p v hv => ?_, fun _ c j v _ _ _ _ => ⟨rfl, logical_smul c j v⟩⟩
  have h2 : smul 2 v p < p := smul_lt 2 hv
  have h4 : smul 2 (smul 2 v p) p < p := smul_lt 2 h2
  rw [double_eq_smul hv, double_eq_smul h2, double_eq_smul h4, triple_eq_smul hv, smul_smul 2 2, smul_smul 2 (2 * 2)]
  exact ⟨rfl, rfl, rfl, rfl, h2, smul_lt 3 hv⟩

/-! ## MUL2, MUL3, MUL4 and MUL8 (R151 to R154) -/

section commands
variable {s : State} {vd : Index}

/-- MUL2 is ADD of a register to itself, failures included (R151 (d)). -/
theorem State.Inv.exec_mul2_eq_add (hinv : s.Inv) (vd va : Index) : exec (.mul2 vd va) s = exec (.add vd va va) s := by
  simp only [exec, execMul2, execAdd, smallMultiple, formatRRR_self, bind_assoc, ok_bind]
  cases hops : formatRR s vd va with
  | error e => rfl
  | ok a =>
    rw [ok_bind, ok_bind]
    cases hk : fieldsOf s a.ctx with
    | error e => rfl
    | ok k => rw [ok_bind, ok_bind, modAdd_self_eq_smul (hinv.operand_RR hops (fieldsOf_ok_iff.1 hk))]

/-- MUL2 onto itself of a register that `j` times `v` was just written to: it makes `2j` times `v` of it. -/
theorem State.Inv.exec_mul2_wrote_smul (hinv : s.Inv) (hvd : vd.toNat < s.cfg.nV) {c : Nat} {k : Context}
    (hk : s.contextAt c = some k) (j v : Nat) :
    exec (.mul2 vd vd) (wrote s vd c (smul j v k.p)) = .next (wrote s vd c (smul (2 * j) v k.p)) := by
  have hops : formatRR (wrote s vd c (smul j v k.p)) vd vd = .ok ⟨c, smul j v k.p⟩ :=
    formatRR_ok_iff.2 ⟨⟨hvd, hvd⟩, hinv.valueAt_written hvd _⟩
  rw [exec_of_effect (.mul2 vd vd ⟨c, smul j v k.p⟩ k hops hk)]
  simp [State.setValue, State.succeed, wrote, smul_smul]

end commands

/-- Settles O47: MUL2's checks are format RR's, its result is the residue of twice the source. -/
theorem mulByTwo : Obligations.MulByTwo := by
  unfold Obligations.MulByTwo
  intro s vd va hinv
  refine ⟨decode_encode (.mul2 vd va), unaryErrors_of_formatRR rfl, hinv.exec_mul2_eq_add vd va, ?_⟩
  intro a k hr ha hk
  have hops : formatRR s vd va = .ok a := formatRR_ok_iff.2 ⟨inRange_pair.1 hr, ha⟩
  obtain ⟨⟨hodd, -⟩, -⟩ := hinv.context_valid hk
  obtain ⟨hne, hres⟩ := two_mul_mod_of_odd hodd (hinv.value_lt ha hk)
  exact ⟨exec_of_effect (.mul2 vd va a k hops hk), hne, hres, logical_smul k 2 a.v⟩

/-- Settles O48: MUL3's checks are format RR's, its result is the residue of three times the source. -/
theorem mulByThree : Obligations.MulByThree := by
  unfold Obligations.MulByThree
  intro s vd va hinv
  refine ⟨decode_encode (.mul3 vd va), unaryErrors_of_formatRR rfl, ?_⟩
  intro a k hr ha hk
  have hops : formatRR s vd va = .ok a := formatRR_ok_iff.2 ⟨inRange_pair.1 hr, ha⟩
  have hav : a.v < k.p := hinv.value_lt ha hk
  exact ⟨exec_of_effect (.mul3 vd va a k hops hk), mod_of_lt_three_mul (by omega), logical_smul k 3 a.v⟩

/-- Settles O49: MUL4's checks are format RR's, its result is twice the result of MUL2. -/
theorem mulByFour : Obligations.MulByFour := by
  unfold Obligations.MulByFour
  intro s vd va hinv
  refine ⟨decode_encode (.mul4 vd va), unaryErrors_of_formatRR rfl, ?_⟩
  intro a k hr ha hk
  obtain ⟨hvd, hva⟩ := inRange_pair.1 hr
  have hops : formatRR s vd va = .ok a := formatRR_ok_iff.2 ⟨⟨hvd, hva⟩, ha⟩
  have hexec : exec (.mul4 vd va) s = .next (wrote s vd a.ctx (smul 4 a.v k.p)) :=
    exec_of_effect (.mul4 vd va a k hops hk)
  refine ⟨hexec, logical_smul k 4 a.v, _, exec_of_effect (.mul2 vd va a k hops hk), ?_⟩
  exact (hinv.exec_mul2_wrote_smul hvd hk 2 a.v).trans hexec.symm

/-- Settles O50: MUL8's checks are format RR's, its result is twice the result of MUL4. -/
theorem mulByEight : Obligations.MulByEight := by
  unfold Obligations.MulByEight
  intro s vd va hinv
  refine ⟨decode_encode (.mul8 vd va), unaryErrors_of_formatRR rfl, ?_⟩
  intro a k hr ha hk
  obtain ⟨hvd, hva⟩ := inRange_pair.1 hr
  have hops : formatRR s vd va = .ok a := formatRR_ok_iff.2 ⟨⟨hvd, hva⟩, ha⟩
  have hexec : exec (.mul8 vd va) s = .next (wrote s vd a.ctx (smul 8 a.v k.p)) :=
    exec_of_effect (.mul8 vd va a k hops hk)
  refine ⟨hexec, logical_smul k 8 a.v, _, exec_of_effect (.mul4 vd va a k hops hk), ?_⟩
  exact (hinv.exec_mul2_wrote_smul hvd hk 4 a.v).trans hexec.symm

end Sys2Proof.Machine
end

section
/-! PROOFS. Family 46_exit_and_tests.md: the two commands that leave the domain, VALUE (O51) and SER (O52), and the four
tests ISZERO, ISONE, EQ and NE (O53 to O56), which decide on representations what holds of the logical values. -/

namespace Sys2Proof.Machine

open Sys2Proof.Claims

/-! ## Commands of formats S and SS (R71, R78) -/

section formats
variable {s : State} {va vb : Index} {a b : Value}

theorem formatS_of_inRange (hr : inRange s [va]) (ha : s.valueAt va.toNat = some a) : formatS s va = .ok a :=
  formatS_ok_iff.2 ⟨hr va (List.mem_singleton.2 rfl), ha⟩

theorem formatSS_of_inRange (hr : inRange s [va, vb]) (ha : s.valueAt va.toNat = some a)
    (hb : s.valueAt vb.toNat = some b) (hab : a.ctx = b.ctx) : formatSS s va vb = .ok (a, b) :=
  formatSS_ok_iff.2 ⟨inRange_pair.1 hr, ha, hb, hab⟩

/-- A command whose checks begin with those of format SS fails as its operands say (R78, steps 2, 3 and 5). -/
theorem binaryErrors_of_formatSS {i : Instr} {f : Value × Value → Except ErrorCode State}
    (hexec : exec i s = s.complete (formatSS s va vb >>= f)) : binaryErrors i s [va, vb] va vb := by
  simp only [binaryErrors, failsWith, failed_eq_fail, hexec, inRange_pair]
  refine ⟨fun hout => ?_, fun ⟨h1, h2⟩ hnone => ?_, fun ⟨h1, h2⟩ a b ha hb hne => ?_⟩
  · exact complete_bind_error (formatSS_illegal (by omega))
  · exact complete_bind_error (formatSS_unwritten h1 h2 hnone)
  · exact complete_bind_error (formatSS_mismatched h1 h2 ha hb hne)

end formats

/-! ## What DOUT, BOUT, DLEN and BLEN hold (R11, R33, R160, R161) -/

section buffers
variable {W x i j n L : Nat}

/-- A number has only zeros from the word on that bounds it. -/
theorem wordOf_eq_zero (hx : x < 2 ^ (n * W)) (hi : n ≤ i) : wordOf W x i = 0 := by
  have hle : 2 ^ (n * W) ≤ 2 ^ (W * i) := by
    rw [Nat.mul_comm n]
    exact Nat.pow_le_pow_right Nat.two_pos (Nat.mul_le_mul_left W hi)
  rw [wordOf, Nat.div_eq_of_lt (hx.trans_le hle), Nat.zero_mod]

/-- DLEN holds every count that its 32 bits can (R33). -/
theorem dlenOf_toNat (h : n < 2 ^ 32) : (dlenOf n).toNat = n := by
  rw [dlenOf, if_pos h, BitVec.toNat_ofNat, Nat.mod_eq_of_lt h]

/-- BLEN holds every count that its 32 bits can (R33). -/
theorem blenOf_toNat (h : n < 2 ^ 32) : (blenOf n).toNat = n := by
  rw [blenOf, if_pos h, BitVec.toNat_ofNat, Nat.mod_eq_of_lt h]

theorem bigEndian_getElem? (h : j < L) : (bigEndian x L)[j]? = some (BitVec.ofNat 8 (x / 2 ^ (8 * (L - 1 - j)))) := by
  simp [bigEndian, h]

/-- BOUT is filled: the serialization's bytes and the zeros after them (R37, R161). -/
theorem State.setBout_bout_length (s : State) (hL : L ≤ s.cfg.bytesMax) :
    (s.setBout x L).bout.length = s.cfg.bytesMax := by
  rw [State.setBout_bout, List.length_append, bigEndian_length, List.length_replicate, Nat.add_sub_cancel' hL]

/-- The bytes of the serialization stand at the front of BOUT (R161). -/
theorem State.setBout_getElem?_lt (s : State) (hj : j < L) :
    (s.setBout x L).bout[j]? = some (BitVec.ofNat 8 (x / 2 ^ (8 * (L - 1 - j)))) := by
  rw [State.setBout_bout, List.getElem?_append_left (by rwa [bigEndian_length]), bigEndian_getElem? hj]

/-- Behind the serialization BOUT is 0 (R161). -/
theorem State.setBout_getElem?_ge (s : State) (hL : L ≤ j) (hj : j < s.cfg.bytesMax) :
    (s.setBout x L).bout[j]? = some 0 := by
  rw [State.setBout_bout, List.getElem?_append_right (by rwa [bigEndian_length]), bigEndian_length,
    List.getElem?_replicate_of_lt (by omega)]

/-- A modulus, and so a serialization, has at least one byte (R161). -/
theorem Context.Valid.bytes_pos {k : Config} {c : Context} (h : Context.Valid k c) : 1 ≤ ceilDiv (bitlen c.p) 8 := by
  have hp := h.one_lt
  by_contra h0
  have hbits : bitlen c.p ≤ 0 * 8 := (ceilDiv_le_iff (by decide)).1 (by omega)
  have hlt : c.p < 1 := bitlen_le_iff.1 hbits
  omega

end buffers

/-! ## VALUE and SER (R160, R161) -/

/-- Settles O51: VALUE's checks are format S's; the words it writes are those of `redc` of the representation, which is
the logical value and so fits `p_words` words. -/
theorem valueExitsTheDomain : Obligations.ValueExitsTheDomain := by
  unfold Obligations.ValueExitsTheDomain
  intro s va hinv
  refine ⟨decode_encode (.value va), unaryErrors_of_formatS rfl, ?_⟩
  intro a k hr ha hk
  have hvalid := hinv.context_valid hk
  have hleave := hvalid.redc_eq_logical hinv.wf (hinv.value_lt ha hk)
  have hlt := hvalid.logical_lt a.v
  have hexec := exec_of_effect (.value va a k (formatS_of_inRange hr ha) hk)
  rw [hleave] at hexec
  refine ⟨_, _, hexec, wordsOf_length _ _ _, s.intOf_setDout (hlt.trans hvalid.lt_limit) k.pWords, hleave.symm,
    fun i hi => wordsOf_getElem? hi, fun i hn hi => ?_, dlenOf_toNat⟩
  rw [← wordOf_eq_zero (hlt.trans (hvalid.lt_R hinv.wf)) hn]
  exact wordsOf_getElem? hi

/-- Settles O52: SER's checks are format S's; the bytes it writes are those of the logical value, which is below `p` and
so fits `L` bytes, as `L` bytes fit BOUT. -/
theorem serializesBigEndian : Obligations.SerializesBigEndian := by
  unfold Obligations.SerializesBigEndian
  intro s va hinv
  refine ⟨decode_encode (.ser va), unaryErrors_of_formatS rfl, ?_⟩
  intro a k hr ha hk
  have hvalid := hinv.context_valid hk
  have hleave := hvalid.redc_eq_logical hinv.wf (hinv.value_lt ha hk)
  have hfits := (hvalid.logical_lt a.v).trans (lt_two_pow_bytes k.p)
  have hL := hvalid.bytes_le
  have hexec := exec_of_effect (.ser va a k (formatS_of_inRange hr ha) hk)
  rw [hleave] at hexec
  exact ⟨ceilDiv (bitlen k.p) 8, _, _, rfl, hvalid.bytes_pos, hL, hexec, s.setBout_bout_length hL,
    fun j hj => ⟨_, s.setBout_getElem?_lt hj, BitVec.toNat_ofNat _ 8⟩, fun j => s.setBout_getElem?_ge,
    s.foldl_take_setBout hfits, blenOf_toNat⟩

/-! ## Canonical representations are equal when their logical values are (R26, R162 to R165) -/

section logical
variable {k : Config} {c : Context} {v w : Nat}

theorem Context.Valid.logical_inj (h : Context.Valid k c) (hk : k.wf) (hv : v < c.p) (hw : w < c.p) :
    logical c v = logical c w ↔ v = w := by
  refine ⟨fun e => ?_, congrArg _⟩
  rw [← h.enter_logical hk hv, e, h.enter_logical hk hw]

/-- `R1` represents one (R163). -/
theorem Context.Valid.logical_R1 (h : Context.Valid k c) (hk : k.wf) : logical c c.R1 = 1 := by
  have h1 : 1 * c.R k.W ≡ c.R1 [MOD c.p] := by simpa using h.R1_modEq.symm
  rw [← logical_congr ((Nat.mod_modEq _ _).trans h1), h.logical_mul_R hk, Nat.mod_eq_of_lt h.one_lt]

theorem Context.Valid.logical_eq_zero_iff (h : Context.Valid k c) (hk : k.wf) (hv : v < c.p) :
    logical c v = 0 ↔ v = 0 := by
  rw [← h.logical_inj hk hv h.p_pos, logical_zero]

theorem Context.Valid.logical_eq_one_iff (h : Context.Valid k c) (hk : k.wf) (hv : v < c.p) :
    logical c v = 1 ↔ v = c.R1 := by
  rw [← h.logical_inj hk hv h.R1_lt, h.logical_R1 hk]

end logical

/-! ## ISZERO, ISONE, EQ and NE -/

section tests
variable {a b : Value} {k : Context}

theorem testZero_iff : testZero a = true ↔ a.v = 0 := beq_iff_eq

theorem testOne_iff : testOne k a = true ↔ a.v = k.R1 := beq_iff_eq

theorem testEq_iff : testEq a b = true ↔ a.v = b.v := beq_iff_eq

theorem testNe_iff : testNe a b = true ↔ a.v ≠ b.v := bne_iff_ne

theorem not_testNe : (!testNe a b) = testEq a b := Bool.not_not _

end tests

/-- Settles O53: ISZERO's checks are format S's, and 0 alone represents 0. -/
theorem isZeroTestsTheRepresentation : Obligations.IsZeroTestsTheRepresentation := by
  unfold Obligations.IsZeroTestsTheRepresentation
  intro s va hinv
  refine ⟨decode_encode (.iszero va), unaryErrors_of_formatS rfl, ?_⟩
  intro a k hr ha hk
  have hzero := (hinv.context_valid hk).logical_eq_zero_iff hinv.wf (hinv.value_lt ha hk)
  exact ⟨testZero a, exec_of_effect (.iszero va a (formatS_of_inRange hr ha)), testZero_iff,
    testZero_iff.trans hzero.symm⟩

/-- Settles O54: ISONE's checks are format S's, and `R1` alone represents 1. -/
theorem isOneTestsForR1 : Obligations.IsOneTestsForR1 := by
  unfold Obligations.IsOneTestsForR1
  intro s va hinv
  refine ⟨decode_encode (.isone va), unaryErrors_of_formatS rfl, ?_⟩
  intro a k hr ha hk
  have hone := (hinv.context_valid hk).logical_eq_one_iff hinv.wf (hinv.value_lt ha hk)
  exact ⟨testOne k a, exec_of_effect (.isone va a k (formatS_of_inRange hr ha) hk), testOne_iff,
    testOne_iff.trans hone.symm⟩

/-- Settles O55: EQ's checks are format SS's, and canonical representations under one context are equal exactly when
their logical values are. -/
theorem eqComparesRepresentations : Obligations.EqComparesRepresentations := by
  unfold Obligations.EqComparesRepresentations
  intro s va vb hinv
  refine ⟨decode_encode (.eq va vb), binaryErrors_of_formatSS rfl, ?_⟩
  intro a b k hr ha hb hab hk
  have hinj := (hinv.context_valid hk).logical_inj hinv.wf (hinv.value_lt ha hk) (hinv.value_lt hb (hab ▸ hk))
  exact ⟨testEq a b, exec_of_effect (.eq va vb a b (formatSS_of_inRange hr ha hb hab)), testEq_iff,
    testEq_iff.trans hinj.symm⟩

/-- Settles O56: NE's checks are EQ's, and its test is the negation of EQ's. -/
theorem neIsTheComplementOfEq : Obligations.NeIsTheComplementOfEq := by
  unfold Obligations.NeIsTheComplementOfEq
  intro s va vb hinv
  refine ⟨decode_encode (.ne va vb), binaryErrors_of_formatSS rfl, ?_⟩
  intro a b k hr ha hb hab hk
  have hops := formatSS_of_inRange hr ha hb hab
  have hinj := (hinv.context_valid hk).logical_inj hinv.wf (hinv.value_lt ha hk) (hinv.value_lt hb (hab ▸ hk))
  refine ⟨testNe a b, exec_of_effect (.ne va vb a b hops), testNe_iff, ?_, testNe_iff.trans hinj.symm.not⟩
  rw [not_testNe]
  exact exec_of_effect (.eq va vb a b hops)

end Sys2Proof.Machine
end

section
/-! PROOFS. Family 60_exceptions.md: how a command ends. A failure writes its code and nothing else (O13), a success
leaves ERRLOG (O14), the first check that fails decides the code (O15), and each command has its own codes (O16). -/

namespace Sys2Proof.Machine

open Sys2Proof.Claims

/-! ## The two ways a command word ends (R189, R190) -/

/-- Settles O13: a word that ends with a code other than 0 has failed. -/
theorem failingCommandWritesOnlyItsError : Obligations.FailingCommandWritesOnlyItsError := by
  unfold Obligations.FailingCommandWritesOnlyItsError
  intro s t c h h0
  obtain ⟨e, rfl⟩ | ⟨i, u, -, -, rfl⟩ := hostIssue_cases h
  · have hbit : e.bit = 1#32 <<< e.code := by cases e <;> rfl
    refine ⟨by simpa using e.code_le.2, by simp [hbit], rfl⟩
  · exact absurd rfl h0

/-- Settles O14: a word that ends with code 0 has its command's effect, and no result is written to ERRLOG. -/
theorem successKeepsErrorLog : Obligations.SuccessKeepsErrorLog := by
  unfold Obligations.SuccessKeepsErrorLog
  intro s t c h h0
  obtain ⟨e, rfl⟩ | ⟨i, u, -, hu, rfl⟩ := hostIssue_cases h
  · exact absurd h0 e.ofNat_code_ne_zero
  · exact hu.errlog_eq

/-! ## The codes of each command (R192) -/

/-- A computation that ends in an error ends in one whose code is listed. -/
def FailsOnlyWith (l : List Nat) {α : Type} (x : Except ErrorCode α) : Prop := ∀ e, x = .error e → e.code ∈ l

/-! A check may stand in a command whose row lists the check's codes. That a row lists a code is read off the row. -/

section codes
variable {l : List Nat} {α β : Type} {s : State}

theorem FailsOnlyWith.ok (a : α) : FailsOnlyWith l (.ok a) := nofun

theorem FailsOnlyWith.bind {x : Except ErrorCode α} {f : α → Except ErrorCode β} (hx : FailsOnlyWith l x)
    (hf : ∀ a, FailsOnlyWith l (f a)) : FailsOnlyWith l (x >>= f) := fun e h => by
  obtain h | ⟨a, -, h⟩ := bind_eq_error_iff.1 h
  · exact hx e h
  · exact hf a e h

theorem FailsOnlyWith.ite {p : Prop} [Decidable p] {e : ErrorCode} (a : α)
    (he : e.code ∈ l := by simp [allowedCodes, ErrorCode.code]) : FailsOnlyWith l (if p then .error e else .ok a) := by
  split
  · rintro _ ⟨⟩
    exact he
  · exact .ok a

theorem needReg_failsOnlyWith (i : Index) (h5 : 5 ∈ l := by simp [allowedCodes]) : FailsOnlyWith l (needReg s i) :=
  fun e he => by
    obtain ⟨rfl, -⟩ := needReg_error_iff.1 he
    exact h5

theorem fieldsOf_failsOnlyWith (c : Nat) (h6 : 6 ∈ l := by simp [allowedCodes]) : FailsOnlyWith l (fieldsOf s c) :=
  fun e he => by
    obtain ⟨rfl, -⟩ := fieldsOf_error_iff.1 he
    exact h6

theorem formatP_failsOnlyWith (ctx : Index) (h5 : 5 ∈ l := by simp [allowedCodes])
    (h7 : 7 ∈ l := by simp [allowedCodes]) : FailsOnlyWith l (formatP s ctx) := fun e he => by
  obtain rfl | rfl := formatP_error he
  · exact h5
  · exact h7

theorem formatN_failsOnlyWith (vd ctx : Index) (h5 : 5 ∈ l := by simp [allowedCodes])
    (h6 : 6 ∈ l := by simp [allowedCodes]) : FailsOnlyWith l (formatN s vd ctx) := fun e he => by
  obtain rfl | rfl := formatN_error he
  · exact h5
  · exact h6

theorem formatS_failsOnlyWith (va : Index) (h5 : 5 ∈ l := by simp [allowedCodes])
    (h6 : 6 ∈ l := by simp [allowedCodes]) : FailsOnlyWith l (formatS s va) := fun e he => by
  obtain rfl | rfl := formatS_error he
  · exact h5
  · exact h6

theorem formatRR_failsOnlyWith (vd va : Index) (h5 : 5 ∈ l := by simp [allowedCodes])
    (h6 : 6 ∈ l := by simp [allowedCodes]) : FailsOnlyWith l (formatRR s vd va) :=
  (needReg_failsOnlyWith vd h5).bind fun _ => formatS_failsOnlyWith va h5 h6

theorem formatSS_failsOnlyWith (va vb : Index) (h2 : 2 ∈ l := by simp [allowedCodes])
    (h5 : 5 ∈ l := by simp [allowedCodes]) (h6 : 6 ∈ l := by simp [allowedCodes]) :
    FailsOnlyWith l (formatSS s va vb) := fun e he => by
  obtain rfl | rfl | rfl := formatSS_error he
  · exact h5
  · exact h6
  · exact h2

theorem formatRRR_failsOnlyWith (vd va vb : Index) (h2 : 2 ∈ l := by simp [allowedCodes])
    (h5 : 5 ∈ l := by simp [allowedCodes]) (h6 : 6 ∈ l := by simp [allowedCodes]) :
    FailsOnlyWith l (formatRRR s vd va vb) :=
  (needReg_failsOnlyWith vd h5).bind fun _ => formatSS_failsOnlyWith va vb h2 h5 h6

end codes

/-- Every command may succeed. -/
theorem zero_mem_allowedCodes (i : Instr) : 0 ∈ allowedCodes i := by
  cases i with
  | vnew vd ctx e => cases e <;> exact List.mem_cons_self
  | _ => exact List.mem_cons_self

/-- The checks of a command raise the codes of its row: those of its format, and its own. -/
theorem exec_failsOnlyWith (i : Instr) (s : State) :
    ∃ r, exec i s = s.complete r ∧ FailsOnlyWith (allowedCodes i) r := by
  cases i with
  | psetup ctx => exact ⟨_, rfl, (formatP_failsOnlyWith ctx).bind fun _ => .ite _⟩
  | vnew vd ctx e =>
    cases e with
    | false => exact ⟨_, rfl, (formatN_failsOnlyWith vd ctx).bind fun _ => .bind (.ite _) fun _ => .ok _⟩
    | true => exact ⟨_, rfl, (formatN_failsOnlyWith vd ctx).bind fun _ => .bind (.ite _) fun _ => .ok _⟩
  | vfree vd => exact ⟨_, rfl, (needReg_failsOnlyWith vd).bind fun _ => .ok _⟩
  | fixsz vd => exact ⟨_, exec_fixsz_eq s vd, (formatS_failsOnlyWith vd).bind fun _ => .ok _⟩
  | add vd va vb | sub vd va vb | mul vd va vb =>
    exact ⟨_, rfl, (formatRRR_failsOnlyWith vd va vb).bind fun _ => (fieldsOf_failsOnlyWith _).bind fun _ => .ok _⟩
  | sqr vd va | neg vd va | mul2 vd va | mul3 vd va | mul4 vd va | mul8 vd va =>
    exact ⟨_, rfl, (formatRR_failsOnlyWith vd va).bind fun _ => (fieldsOf_failsOnlyWith _).bind fun _ => .ok _⟩
  | inv vd va =>
    exact ⟨_, rfl, (formatRR_failsOnlyWith vd va).bind fun _ => (fieldsOf_failsOnlyWith _).bind fun _ =>
      .bind (.ite _) fun _ => .ok _⟩
  | value va | ser va | isone va =>
    exact ⟨_, rfl, (formatS_failsOnlyWith va).bind fun _ => (fieldsOf_failsOnlyWith _).bind fun _ => .ok _⟩
  | iszero va => exact ⟨_, rfl, (formatS_failsOnlyWith va).bind fun _ => .ok _⟩
  | eq va vb | ne va vb => exact ⟨_, rfl, (formatSS_failsOnlyWith va vb).bind fun _ => .ok _⟩

/-- Settles O16: a success has code 0, and a failure a code that one of the command's checks raises. -/
theorem commandsEndOnlyWithTheirCodes : Obligations.CommandsEndOnlyWithTheirCodes := by
  unfold Obligations.CommandsEndOnlyWithTheirCodes
  intro s t i h
  obtain ⟨r, hr, hcodes⟩ := exec_failsOnlyWith i s
  obtain ⟨u, -, rfl⟩ | ⟨e, he, rfl⟩ := State.complete_eq_next_iff.1 (hr.symm.trans h)
  · exact zero_mem_allowedCodes i
  · simpa using hcodes e he

/-! ## The checks of R78, step by step -/

section checks
variable {s : State} {i : Instr} {vd va vb ctx : Index} {e : ErrorCode}

theorem failsWith_iff : failsWith i s e ↔ exec i s = .next (s.fail e) := by rw [failsWith, failed_eq_fail]

/-- A command has no source, one or two. -/
theorem sources_cases (i : Instr) :
    sources i = [] ∨ (∃ va, sources i = [va]) ∨ ∃ va vb, sources i = [va, vb] := by
  cases i with
  | psetup | vnew | vfree => exact .inl rfl
  | add | sub | mul | eq | ne => exact .inr (.inr ⟨_, _, rfl⟩)
  | _ => exact .inr (.inl ⟨_, rfl⟩)

theorem badIndex_iff :
    badIndex i s = true ↔ (∃ r ∈ regFields i, s.cfg.nV ≤ r.toNat) ∨ ∃ c ∈ ctxFields i, s.cfg.nP ≤ c.toNat := by
  simp [badIndex]

theorem missing_iff :
    missing i s = true ↔ (∃ r ∈ sources i, s.valueAt r.toNat = none) ∨
      ∃ vd ctx e, i = .vnew vd ctx e ∧ s.contextAt ctx.toNat = none := by
  cases i with
  | vnew => simp [missing, sources]
  | _ => simp [missing]

/-- Step 4 is the model's `Referenced`. -/
theorem busy_psetup (s : State) (ctx : Index) : busy (.psetup ctx) s = s.referenced ctx.toNat :=
  congrArg s.values.any (funext fun o => by cases o <;> rfl)

theorem busy_iff : busy i s = true ↔ ∃ ctx, i = .psetup ctx ∧ s.referenced ctx.toNat = true := by
  cases i with
  | psetup ctx => simp [busy_psetup]
  | _ => simp [busy]

theorem mismatched_iff :
    mismatched i s = true ↔ ∃ va vb, sources i = [va, vb] ∧
      (s.valueAt va.toNat).map (·.ctx) ≠ (s.valueAt vb.toNat).map (·.ctx) := by
  unfold mismatched
  split <;> simp_all

/-- A command of one source fails in steps 2 and 3 as its registers say. -/
theorem unaryErrors_of_sources (h : sources i = [va]) : unaryErrors i s (regFields i) va := by
  cases i with
  | sqr | inv | neg | mul2 | mul3 | mul4 | mul8 =>
    cases h
    exact unaryErrors_of_formatRR rfl
  | value | ser | iszero | isone =>
    cases h
    exact unaryErrors_of_formatS rfl
  | fixsz =>
    cases h
    exact unaryErrors_of_formatS (exec_fixsz_eq s va)
  | _ => cases h

/-- A command of two sources fails in steps 2, 3 and 5 as its registers say. -/
theorem binaryErrors_of_sources (h : sources i = [va, vb]) : binaryErrors i s (regFields i) va vb := by
  cases i with
  | add | sub | mul =>
    cases h
    exact binaryErrors_of_formatRRR rfl
  | eq | ne =>
    cases h
    exact binaryErrors_of_formatSS rfl
  | _ => cases h

/-- Command `i` passes step 2 of R78. -/
structure IndicesPass (i : Instr) (s : State) : Prop where
  regs : inRange s (regFields i)
  ctxs : ∀ c ∈ ctxFields i, c.toNat < s.cfg.nP

/-- Command `i` passes steps 2 to 5 of R78. -/
structure OperandsPass (i : Instr) (s : State) : Prop extends IndicesPass i s where
  written : ¬ missing i s = true
  idle : ¬ busy i s = true
  matched : ¬ mismatched i s = true

theorem indicesPass_of_not_badIndex (h : ¬ badIndex i s = true) : IndicesPass i s := by
  simp only [badIndex_iff, not_or, not_exists, not_and, Nat.not_le] at h
  exact ⟨h.1, h.2⟩

/-- Step 2. -/
theorem failsWith_of_badIndex (h : badIndex i s = true) : failsWith i s .illegalCommand :=
  failsWith_iff.2 (exec_illegal (badIndex_iff.1 h))

theorem failsWith_of_source_none (hidx : IndicesPass i s) {r : Index} (hr : r ∈ sources i)
    (hnone : s.valueAt r.toNat = none) : failsWith i s .unwritten := by
  obtain hs | ⟨va, hs⟩ | ⟨va, vb, hs⟩ := sources_cases i
  · simp [hs] at hr
  · obtain ⟨-, hfail⟩ := unaryErrors_of_sources (s := s) hs
    obtain rfl : r = va := by simpa [hs] using hr
    exact hfail hidx.regs hnone
  · obtain ⟨-, hfail, -⟩ := binaryErrors_of_sources (s := s) hs
    obtain rfl | rfl : r = va ∨ r = vb := by simpa [hs] using hr
    · exact hfail hidx.regs (.inl hnone)
    · exact hfail hidx.regs (.inr hnone)

/-- Step 3. -/
theorem failsWith_of_missing (hidx : IndicesPass i s) (h : missing i s = true) : failsWith i s .unwritten := by
  obtain ⟨r, hr, hnone⟩ | ⟨vd, ctx, e, rfl, hnone⟩ := missing_iff.1 h
  · exact failsWith_of_source_none hidx hr hnone
  · have hvd := hidx.regs vd List.mem_cons_self
    have hctx := hidx.ctxs ctx List.mem_cons_self
    exact failsWith_iff.2 (complete_bind_error (formatN_unwritten hvd hctx hnone))

/-- Step 4. -/
theorem failsWith_of_busy (hidx : IndicesPass i s) (h : busy i s = true) : failsWith i s .contextBusy := by
  obtain ⟨ctx, rfl, href⟩ := busy_iff.1 h
  exact failsWith_iff.2 (complete_bind_error (formatP_busy (hidx.ctxs ctx List.mem_cons_self) href))

theorem source_written (hm : ¬ missing i s = true) {r : Index} (hr : r ∈ sources i) :
    ∃ a, s.valueAt r.toNat = some a :=
  Option.ne_none_iff_exists'.1 fun hnone => hm (missing_iff.2 (.inl ⟨r, hr, hnone⟩))

/-- Step 5. -/
theorem failsWith_of_mismatched (hidx : IndicesPass i s) (hm : ¬ missing i s = true) (h : mismatched i s = true) :
    failsWith i s .mismatchedModulus := by
  obtain ⟨va, vb, hs, hne⟩ := mismatched_iff.1 h
  obtain ⟨a, ha⟩ := source_written hm (r := va) (by simp [hs])
  obtain ⟨b, hb⟩ := source_written hm (r := vb) (by simp [hs])
  obtain ⟨-, -, hfail⟩ := binaryErrors_of_sources (s := s) hs
  exact hfail hidx.regs a b ha hb (by simpa [ha, hb] using hne)

/-! What the operand forms answer a command that passes steps 2 to 5. -/

namespace OperandsPass

theorem formatP (h : OperandsPass (.psetup ctx) s) : formatP s ctx = .ok () :=
  formatP_ok_iff.2 ⟨h.ctxs ctx List.mem_cons_self, Bool.eq_false_iff.2 (busy_psetup s ctx ▸ h.idle)⟩

theorem formatN {e : Bool} (h : OperandsPass (.vnew vd ctx e) s) : ∃ k, formatN s vd ctx = .ok k := by
  obtain ⟨k, hk⟩ := Option.ne_none_iff_exists'.1 fun hnone =>
    h.written (missing_iff.2 (.inr ⟨vd, ctx, e, rfl, hnone⟩))
  exact ⟨k, formatN_ok_iff.2 ⟨h.regs vd List.mem_cons_self, h.ctxs ctx List.mem_cons_self, hk⟩⟩

variable (h : OperandsPass i s)
include h

theorem source (hinv : s.Inv) {r : Index} (hr : r ∈ sources i) :
    ∃ a k, s.valueAt r.toNat = some a ∧ s.contextAt a.ctx = some k := by
  obtain ⟨a, ha⟩ := source_written h.written hr
  obtain ⟨k, hk, -⟩ := hinv.holds ha
  exact ⟨a, k, ha, hk⟩

theorem formatS (hinv : s.Inv) (hregs : regFields i = [va]) (hs : sources i = [va]) :
    ∃ a k, formatS s va = .ok a ∧ s.contextAt a.ctx = some k := by
  obtain ⟨a, k, ha, hk⟩ := h.source hinv (r := va) (by simp [hs])
  exact ⟨a, k, formatS_of_inRange (hregs ▸ h.regs) ha, hk⟩

theorem formatRR (hinv : s.Inv) (hregs : regFields i = [vd, va]) (hs : sources i = [va]) :
    ∃ a k, formatRR s vd va = .ok a ∧ s.contextAt a.ctx = some k := by
  obtain ⟨a, k, ha, hk⟩ := h.source hinv (r := va) (by simp [hs])
  exact ⟨a, k, formatRR_ok_iff.2 ⟨inRange_pair.1 (hregs ▸ h.regs), ha⟩, hk⟩

theorem sources_pair (hinv : s.Inv) (hs : sources i = [va, vb]) :
    ∃ a b k, s.valueAt va.toNat = some a ∧ s.valueAt vb.toNat = some b ∧ a.ctx = b.ctx ∧
      s.contextAt a.ctx = some k := by
  obtain ⟨a, k, ha, hk⟩ := h.source hinv (r := va) (by simp [hs])
  obtain ⟨b, -, hb, -⟩ := h.source hinv (r := vb) (by simp [hs])
  refine ⟨a, b, k, ha, hb, ?_, hk⟩
  by_contra hne
  exact h.matched (mismatched_iff.2 ⟨va, vb, hs, by simpa [ha, hb] using hne⟩)

theorem formatSS (hinv : s.Inv) (hregs : regFields i = [va, vb]) (hs : sources i = [va, vb]) :
    ∃ a b, formatSS s va vb = .ok (a, b) := by
  obtain ⟨a, b, -, ha, hb, hab, -⟩ := h.sources_pair hinv hs
  exact ⟨a, b, formatSS_of_inRange (hregs ▸ h.regs) ha hb hab⟩

theorem formatRRR (hinv : s.Inv) (hregs : regFields i = [vd, va, vb]) (hs : sources i = [va, vb]) :
    ∃ a b k, formatRRR s vd va vb = .ok (a, b) ∧ s.contextAt a.ctx = some k := by
  obtain ⟨a, b, k, ha, hb, hab, hk⟩ := h.sources_pair hinv hs
  exact ⟨a, b, k, formatRRR_ok_iff.2 ⟨inRange_triple.1 (hregs ▸ h.regs), ha, hb, hab⟩, hk⟩

end OperandsPass

/-- Step 6. -/
theorem failsWith_of_ownError (hinv : s.Inv) (h : OperandsPass i s) (he : ownError i s = some e) :
    failsWith i s e := by
  rw [failsWith_iff]
  cases i with
  | psetup ctx =>
    obtain ⟨hp, rfl⟩ : (s.dinInt % 2 = 0 ∨ s.dinInt = 1) ∧ .invalidModulus = e := by simpa [ownError] using he
    exact exec_psetup_invalid h.formatP (.inr hp)
  | vnew vd ctx enter =>
    obtain ⟨k, hops⟩ := h.formatN
    obtain ⟨-, -, hk⟩ := formatN_ok_iff.1 hops
    cases enter with
    | false =>
      obtain ⟨hx, rfl⟩ : k.p ≤ s.dinInt ∧ .malformedRepresentation = e := by simpa [ownError, hk] using he
      exact exec_vnew_malformed hops hx
    | true =>
      obtain ⟨hx, rfl⟩ : 2 ^ (k.pWords * s.cfg.W) ≤ s.dinInt ∧ .operandRange = e := by simpa [ownError, hk] using he
      exact exec_vnew_operandRange hops hx
  | inv vd va =>
    obtain ⟨a, k, hops, hk⟩ := h.formatRR hinv rfl rfl
    obtain ⟨-, ha⟩ := formatRR_ok_iff.1 hops
    obtain ⟨hg, rfl⟩ : Nat.gcd (logical k a.v) k.p ≠ 1 ∧ .notInvertible = e := by simpa [ownError, ha, hk] using he
    rw [← (hinv.context_valid hk).redc_eq_logical hinv.wf (hinv.value_lt ha hk)] at hg
    exact exec_inv_notInvertible hops hk hg
  | _ => cases he

theorem complete_bind_ok {α : Type} {x : Except ErrorCode α} {f : α → Except ErrorCode State} {a : α}
    (h : x = .ok a) : s.complete (x >>= f) = s.complete (f a) := by
  rw [h, ok_bind]

/-- Step 7: a command that passes every check succeeds. -/
theorem exec_succeeds (hinv : s.Inv) (h : OperandsPass i s) (hown : ownError i s = none) :
    ∃ u : State, exec i s = .next u.succeed := by
  cases i with
  | psetup ctx =>
    obtain ⟨hctx, hfree⟩ := formatP_ok_iff.1 h.formatP
    obtain ⟨hodd, h1⟩ : s.dinInt % 2 = 1 ∧ s.dinInt ≠ 1 := by simpa [ownError] using hown
    exact ⟨_, exec_of_effect (.psetup ctx hctx hfree hodd (by omega))⟩
  | vnew vd ctx enter =>
    obtain ⟨k, hops⟩ := h.formatN
    obtain ⟨hvd, hctx, hk⟩ := formatN_ok_iff.1 hops
    cases enter with
    | false =>
      have hx : s.dinInt < k.p := by simpa [ownError, hk] using hown
      exact ⟨_, exec_of_effect (.vnewRaw vd ctx k hvd hctx hk hx)⟩
    | true =>
      have hx : s.dinInt < 2 ^ (k.pWords * s.cfg.W) := by simpa [ownError, hk] using hown
      exact ⟨_, exec_of_effect (.vnewEnter vd ctx k hvd hctx hk hx)⟩
  | vfree vd => exact ⟨_, complete_bind_ok (needReg_ok (h.regs vd List.mem_cons_self))⟩
  | inv vd va =>
    obtain ⟨a, k, hops, hk⟩ := h.formatRR hinv rfl rfl
    obtain ⟨-, ha⟩ := formatRR_ok_iff.1 hops
    have hg : Nat.gcd (logical k a.v) k.p = 1 := by simpa [ownError, ha, hk] using hown
    rw [← (hinv.context_valid hk).redc_eq_logical hinv.wf (hinv.value_lt ha hk)] at hg
    exact ⟨_, exec_of_effect (.inv vd va a k hops hk hg)⟩
  | fixsz vd =>
    obtain ⟨a, k, hops, hk⟩ := h.formatS hinv rfl rfl
    exact ⟨_, (exec_fixsz_eq s vd).trans (complete_bind_ok hops)⟩
  | add | sub | mul =>
    obtain ⟨a, b, k, hops, hk⟩ := h.formatRRR hinv rfl rfl
    exact ⟨_, (complete_bind_ok hops).trans (complete_bind_ok (fieldsOf_ok_iff.2 hk))⟩
  | sqr | neg | mul2 | mul3 | mul4 | mul8 =>
    obtain ⟨a, k, hops, hk⟩ := h.formatRR hinv rfl rfl
    exact ⟨_, (complete_bind_ok hops).trans (complete_bind_ok (fieldsOf_ok_iff.2 hk))⟩
  | value | ser | isone =>
    obtain ⟨a, k, hops, hk⟩ := h.formatS hinv rfl rfl
    exact ⟨_, (complete_bind_ok hops).trans (complete_bind_ok (fieldsOf_ok_iff.2 hk))⟩
  | iszero =>
    obtain ⟨a, -, hops, -⟩ := h.formatS hinv rfl rfl
    exact ⟨_, complete_bind_ok hops⟩
  | eq | ne =>
    obtain ⟨a, b, hops⟩ := h.formatSS hinv rfl rfl
    exact ⟨_, complete_bind_ok hops⟩

/-- The checks are made in the order of `firstError`. -/
theorem failsWith_of_firstError (hinv : s.Inv) (h : firstError i s = some e) : failsWith i s e := by
  unfold firstError at h
  split_ifs at h with hbad hmissing hbusy hmismatched
  · cases h
    exact failsWith_of_badIndex hbad
  · cases h
    exact failsWith_of_missing (indicesPass_of_not_badIndex hbad) hmissing
  · cases h
    exact failsWith_of_busy (indicesPass_of_not_badIndex hbad) hbusy
  · cases h
    exact failsWith_of_mismatched (indicesPass_of_not_badIndex hbad) hmissing hmismatched
  · exact failsWith_of_ownError hinv ⟨indicesPass_of_not_badIndex hbad, hmissing, hbusy, hmismatched⟩ h

theorem checks_pass_of_firstError_none (h : firstError i s = none) : OperandsPass i s ∧ ownError i s = none := by
  unfold firstError at h
  split_ifs at h with hbad hmissing hbusy hmismatched
  exact ⟨⟨indicesPass_of_not_badIndex hbad, hmissing, hbusy, hmismatched⟩, h⟩

end checks

/-- Settles O15: a word that is no command fails in step 1, a command in the first of steps 2 to 6 that it does not
pass, and one that passes them all succeeds. -/
theorem firstFailingCheckDecides : Obligations.FirstFailingCheckDecides := by
  unfold Obligations.FirstFailingCheckDecides
  intro s c hinv
  refine ⟨fun e hd => ?_, fun i hd => ?_⟩
  · rw [failed_eq_fail]
    exact hostIssue_of_not_command (fun i hi => nomatch hd.symm.trans hi) s
  · rw [hostIssue_of_decode hd]
    refine ⟨fun e he => failsWith_of_firstError hinv he, fun hnone => ?_⟩
    obtain ⟨hops, hown⟩ := checks_pass_of_firstError_none hnone
    obtain ⟨u, hu⟩ := exec_succeeds hinv hops hown
    exact ⟨_, hu, rfl, successKeepsErrorLog s _ c ((hostIssue_of_decode hd s).trans hu) rfl⟩

end Sys2Proof.Machine
end
